-- ==== Sys2Proof/Word.lean ====
section
/-! DEFINITION. The word and byte of SHA1CORE (00_scope.md R7, R8): every value is unsigned and of a fixed
width, bit 0 is the least significant bit. -/

namespace Sys2Proof

/-- A 32-bit word (R7 WORD_BITS, R8). -/
abbrev Word := BitVec 32

/-- A byte, 8 bits (R8). -/
abbrev Byte := BitVec 8

/-- A block of 64 bytes (R7 BLOCK_BYTES, R17): the form of BUF and of one element of `parse`. -/
abbrev Block := Vector Byte 64

end Sys2Proof
end

