-- ==== Sys2Proof/Machine/HostSyntax.lean ====
section
/-! DEFINITION. The registers of the window by name (20_memory.md R35) and the statements of a host program
(30_encoding.md R57). -/

namespace Sys2Proof.Machine

/-- The named registers of R35. -/
inductive Reg where
  | cmd
  | status
  | config
  | dataIn
  | lenLo
  | lenHi
  | id
  /-- H0..H4 -/
  | h (i : Fin 5)
  /-- DOUT0..DOUT4 -/
  | dout (i : Fin 5)
  /-- M0..M15 -/
  | m (j : Fin 16)
  deriving DecidableEq, Repr

/-- The byte offset of a register in the window (R35). -/
def Reg.offset : Reg → Nat
  | .cmd => 0x00
  | .status => 0x04
  | .config => 0x08
  | .dataIn => 0x0C
  | .lenLo => 0x10
  | .lenHi => 0x14
  | .id => 0x18
  | .h i => 0x20 + 4 * i.val
  | .dout i => 0x40 + 4 * i.val
  | .m j => 0x80 + 4 * j.val

/-- Every named register, each once. -/
def Reg.all : List Reg :=
  [.cmd, .status, .config, .dataIn, .lenLo, .lenHi, .id]
    ++ (List.finRange 5).map .h ++ (List.finRange 5).map .dout ++ (List.finRange 16).map .m

/-- The register at a byte offset, none at a reserved offset (R35, R36): `Reg.offset` read backwards. -/
def Reg.ofOffset (off : Nat) : Option Reg := Reg.all.find? (fun r => r.offset == off)

/-- A primitive statement of a host program (R57). An access carries its width in bytes and its byte offset, so that
the accesses R37 refuses can be written down. Labels and variables are numbers. -/
inductive HostStmt where
  /-- `WR`: RegWrite(off, v) (R85) -/
  | wr (bytes off : Nat) (v : Word)
  /-- `RD`: var <- RegRead(off) (R84) -/
  | rd (bytes off var : Nat)
  /-- `BNZ`: go to the label if (var AND mask) ≠ 0 -/
  | bnz (var : Nat) (mask : Word) (label : Nat)
  /-- `RESET`: drive the reset input (R108) -/
  | reset
  deriving DecidableEq, Repr

/-- `WR <reg>, <imm32>` (R57). -/
def HostStmt.write (r : Reg) (v : Word) : HostStmt := .wr 4 r.offset v

/-- `RD <reg> -> <var>` (R57). -/
def HostStmt.read (r : Reg) (var : Nat) : HostStmt := .rd 4 r.offset var

/-- One line of a host program: a statement, perhaps with a label (R57). DESIGN CHOICE (assumption 4): R57 does not say
whether a line may bear several labels or a label may stand behind the last statement; here a line bears at most one, and
only on a statement. -/
structure Line where
  label : Option Nat
  stmt : HostStmt
  deriving DecidableEq, Repr

end Sys2Proof.Machine
end

