-- ==== Sys2Proof/Machine/State.lean ====
section
/-! DEFINITION. The state of SHA1CORE (10_state.md R18) with the host agent (R4, R57) and the model's own fields,
and the state after reset (70_reset_and_hazards.md R108). -/

namespace Sys2Proof.Machine

/-- HashState, the five words H0..H4 (R19). -/
structure HashState where
  h0 : Word
  h1 : Word
  h2 : Word
  h3 : Word
  h4 : Word
  deriving DecidableEq, Repr

/-- IV, the fixed initial HashState (R80). -/
def HashState.iv : HashState :=
  { h0 := 0x67452301, h1 := 0xEFCDAB89, h2 := 0x98BADCFE, h3 := 0x10325476, h4 := 0xC3D2E1F0 }

/-- ERR, the error code of STATUS (R94). Codes 6 and 7 are "never produced" and have no name. -/
inductive ErrorCode where
  /-- 0 NONE -/
  | none
  /-- 1 INPUT_TOO_LARGE (R97) -/
  | inputTooLarge
  /-- 2 INVALID_BLOCK_LENGTH (R98) -/
  | invalidBlockLength
  /-- 3 SEQUENCE (R99) -/
  | sequence
  /-- 4 BUSY_VIOLATION (R100) -/
  | busyViolation
  /-- 5 ILLEGAL_COMMAND (R101) -/
  | illegalCommand
  deriving DecidableEq, Repr

/-- CONFIG.ENDIAN (R30, R40). -/
inductive LaneOrder where
  /-- 0: the first byte in bits 31:24 -/
  | big
  /-- 1: the first byte in bits 7:0 -/
  | little
  deriving DecidableEq, Repr

/-- A latched command with the operands taken at issue (R29). -/
inductive Pending where
  | init
  /-- ABSORB with its 1 to 4 message bytes -/
  | absorb (bytes : List Byte)
  | final
  | block
  deriving DecidableEq, Repr

/-- The two agents that take steps (R4). -/
inductive Agent where
  | host
  | engine
  deriving DecidableEq, Repr

/-- The host (R4, R57): its program, its own program counter and what its RD statements returned (R115), newest first.
The value of a host variable is its newest entry. -/
structure HostAgent where
  program : List Line
  pc : Nat
  reads : List (Nat × Word)
  deriving DecidableEq, Repr

/-- The machine. The fields down to `dataIn` are R18's list of "the complete state of SHA1CORE"; the host is an agent
of R4; `turns`, `issued`, `waited` and `draws` are the model's own and carry the free values. ID is the constant
`idValue`, and W and v0..v4 exist only inside a completion (R20, R21). -/
structure State where
  /-- H0..H4 (R19) -/
  h : HashState
  /-- BUF[0..63] (R24) -/
  buf : Block
  /-- BUFCNT, 6 bits (R25) -/
  bufcnt : Fin 64
  /-- LEN, the message bit length (R26) -/
  len : BitVec 64
  /-- DONE (R27) -/
  done : Bool
  /-- ERR (R28) -/
  err : ErrorCode
  /-- BUSY (R29) -/
  busy : Bool
  /-- PENDING (R29) -/
  pending : Option Pending
  /-- CONFIG.ENDIAN (R30) -/
  endian : LaneOrder
  /-- DATA_IN (R31) -/
  dataIn : Word
  /-- the host agent (R4) -/
  host : HostAgent
  /-- the model's own: which agent moves at the next steps where both can (R46) -/
  turns : List Agent
  /-- the model's own: how many commands have been accepted, the argument of `Config.latency` -/
  issued : Nat
  /-- the model's own: host steps since the pending command was accepted -/
  waited : Nat
  /-- the model's own: how many draws have been taken, the argument of `Config.draw` -/
  draws : Nat
  deriving DecidableEq, Repr

/-- Why the machine stops with a fault. -/
inductive Fault where
  /-- A host access at an offset of 256 or more: the window has no such address (R34). Raised by `checkAccess`. Safe. -/
  | outsideWindow (off : Nat)
  deriving DecidableEq, Repr

/-- Why the model gives a statement no meaning. -/
inductive Refusal where
  /-- A command without a meaning yet; raised by no arm of `exec`. Safe. -/
  | notModelled (mnemonic : String)
  /-- A host access that is not 32 bits wide: "not an operation of this hardware" (R37). Raised by `checkAccess`. Safe. -/
  | accessWidth (bytes : Nat)
  /-- A host access at an offset that is no multiple of 4 (R37). Raised by `checkAccess`. Safe. -/
  | accessMisaligned (off : Nat)
  /-- A BNZ that is taken to a label its program does not have: no host program of R57. Raised by `execStmt`. Safe. -/
  | noSuchLabel (label : Nat)
  deriving DecidableEq, Repr

/-- The state after reset (R108, R109). The host has no program: one is loaded from outside (assumption 3). -/
def State.reset : State where
  h := HashState.iv
  buf := Vector.replicate 64 0x00
  bufcnt := 0
  len := 0
  done := false
  err := .none
  busy := false
  pending := none
  endian := .big
  dataIn := 0x00000000
  host := { program := [], pc := 0, reads := [] }
  turns := []
  issued := 0
  waited := 0
  draws := 0

end Sys2Proof.Machine
end

