-- ==== Sys2Proof/Machine/Operands.lean ====
section
/-! DEFINITION. Word and byte forms: arithmetic and rotation (00_scope.md R11 to R15) and the lane order of host words
(20_memory.md R39 to R43). -/

namespace Sys2Proof.Machine

/-- `add32` (R12): the sum modulo 2^32. -/
def add32 (a b : Word) : Word := a + b

/-- `rotl32` (R13), on every natural `n` by `n mod 32`. -/
def rotl32 (x : Word) (n : Nat) : Word := x <<< (n % 32) ||| x >>> (32 - n % 32)

/-- `be32` (R14): the first byte is the most significant. -/
def be32 (b : Vector Byte 4) : Word := b[0] ++ b[1] ++ b[2] ++ b[3]

/-- `bytes_be32` (R14): `[w[31:24], w[23:16], w[15:8], w[7:0]]`. -/
def bytesBe32 (w : Word) : Vector Byte 4 :=
  #v[w.extractLsb' 24 8, w.extractLsb' 16 8, w.extractLsb' 8 8, w.extractLsb' 0 8]

/-- `be64` (R14): 8 bytes, most significant first. -/
def be64 (n : BitVec 64) : List Byte :=
  [n.extractLsb' 56 8, n.extractLsb' 48 8, n.extractLsb' 40 8, n.extractLsb' 32 8,
   n.extractLsb' 24 8, n.extractLsb' 16 8, n.extractLsb' 8 8, n.extractLsb' 0 8]

/-- `bswap32` (R15). -/
def bswap32 (w : Word) : Word :=
  be32 #v[w.extractLsb' 0 8, w.extractLsb' 8 8, w.extractLsb' 16 8, w.extractLsb' 24 8]

/-- `lane_bytes` (R40). -/
def laneBytes (v : Word) : LaneOrder → Vector Byte 4
  | .big => #v[v.extractLsb' 24 8, v.extractLsb' 16 8, v.extractLsb' 8 8, v.extractLsb' 0 8]
  | .little => #v[v.extractLsb' 0 8, v.extractLsb' 8 8, v.extractLsb' 16 8, v.extractLsb' 24 8]

/-- `lane_word` (R40). -/
def laneWord (b : Vector Byte 4) : LaneOrder → Word
  | .big => be32 b
  | .little => be32 #v[b[3], b[2], b[1], b[0]]

/-- ENDIAN as the bit CONFIG[0] (R30). -/
def LaneOrder.bit : LaneOrder → Bool
  | .big => false
  | .little => true

/-- ENDIAN from the bit CONFIG[0] (R30). -/
def LaneOrder.ofBit : Bool → LaneOrder
  | false => .big
  | true => .little

/-- The bytes ABSORB n takes, in message order: the first n of the lane sequence of DATA_IN (R41). -/
def absorbBytes (dataIn : Word) (e : LaneOrder) (n : Nat) : List Byte := (laneBytes dataIn e).toList.take n

/-- `H[i]` (R10). -/
def HashState.get (h : HashState) (i : Fin 5) : Word :=
  match i with
  | 0 => h.h0
  | 1 => h.h1
  | 2 => h.h2
  | 3 => h.h3
  | 4 => h.h4

/-- `BUF[4j .. 4j+4)`, the four bytes behind Mj (R42) and behind block word j (R68). -/
def Block.quad (B : Block) (j : Fin 16) : Vector Byte 4 :=
  #v[B[4 * j.val], B[4 * j.val + 1], B[4 * j.val + 2], B[4 * j.val + 3]]

/-- `BUF[4j .. 4j+4) <- q` (R42). -/
def Block.setQuad (B : Block) (j : Fin 16) (q : Vector Byte 4) : Block :=
  (((B.set (4 * j.val) q[0]).set (4 * j.val + 1) q[1]).set (4 * j.val + 2) q[2]).set (4 * j.val + 3) q[3]

/-- The block whose bytes are the first 64 of a byte sequence. A shorter one, which no caller gives, is filled with zeros
(DESIGN CHOICE, assumption 19). -/
@[irreducible] def Block.ofBytes (p : List Byte) : Block := Vector.ofFn (fun i => p.getD i.val 0)

end Sys2Proof.Machine
end

