-- ==== Sys2Proof/Machine/Padder.lean ====
section
/-! DEFINITION. The Padder (40_padder.md R59 to R65). -/

namespace Sys2Proof.Machine

/-- The zero fill of R60, `k = (55 − L) mod 64` as the non-negative residue: 119 − L mod 64 is 55 − L modulo 64 and
never negative. -/
def zeroFill (L : Nat) : Nat := (119 - L % 64) % 64

/-- `pad(m)` (R59), whose operand has at most 2^61 − 1 bytes. DESIGN CHOICE (assumption 17): a longer list is outside the
rule's range and the rules give it no padded form (R63); this total function takes `8 × len(m)` modulo 2^64 there. The
machine never pads such a message: ABSORB refuses it (R97). -/
def pad (m : List Byte) : List Byte :=
  m ++ [0x80] ++ List.replicate (zeroFill m.length) 0x00 ++ be64 (BitVec.ofNat 64 (8 * m.length))

/-- `pad_tail(B, c, LEN)` (R65). -/
def padTail (B : Block) (c : Fin 64) (len : BitVec 64) : List Byte :=
  B.toList.take c.val ++ [0x80] ++ List.replicate (zeroFill c.val) 0x00 ++ be64 len

end Sys2Proof.Machine
end

