-- ==== Sys2Proof/Machine/BlockParser.lean ====
section
/-! DEFINITION. The BlockParser (41_block_parser.md R66 to R68). -/

namespace Sys2Proof.Machine

/-- `InvalidBlockLength`, the one failure of `parse` (R67). -/
inductive ParseError where
  | invalidBlockLength
  deriving DecidableEq, Repr

/-- `[ p[64i .. 64i+64) for i from 0 to len(p)/64 − 1 ]` (R66). Bytes behind the last whole block, which `parse` refuses
(R67), are left out (DESIGN CHOICE, assumption 19). -/
def blocks (p : List Byte) : List Block :=
  (List.range (p.length / 64)).map (fun i => Block.ofBytes ((p.drop (64 * i)).take 64))

/-- `parse(p)` (R66), with its precondition (R67). -/
def parse (p : List Byte) : Except ParseError (List Block) :=
  if p.length % 64 = 0 then .ok (blocks p) else .error .invalidBlockLength

/-- The big-endian words of a byte sequence, four bytes at a time (R68, R39(a)). Fewer than four bytes at
the end, which no block has, are left out (DESIGN CHOICE, assumption 19). -/
def bigEndianWords : List Byte → List Word
  | b0 :: b1 :: b2 :: b3 :: rest => be32 #v[b0, b1, b2, b3] :: bigEndianWords rest
  | _ => []

/-- The 16 words of a block: word j is `be32(B[4j .. 4j+4))` (R68). -/
def blockWords (B : Block) : List Word := bigEndianWords B.toList

end Sys2Proof.Machine
end

