-- ==== Sys2Proof/Machine/ScheduleExpander.lean ====
section
/-! DEFINITION. The ScheduleExpander (42_schedule_expander.md R71 to R74). -/

namespace Sys2Proof.Machine

/-- `W[t]` for t ≥ 16 from the words before it (R72). For a smaller t or a missing word, which no caller has, the value is
the model's (DESIGN CHOICE, assumption 19). -/
def scheduleWord (W : List Word) (t : Nat) : Word :=
  rotl32 (W.getD (t - 3) 0 ^^^ W.getD (t - 8) 0 ^^^ W.getD (t - 14) 0 ^^^ W.getD (t - 16) 0) 1

/-- `k` more words of the recurrence, in increasing order of t (R72, R73). -/
def extendSchedule : Nat → List Word → List Word
  | 0, W => W
  | k + 1, W => extendSchedule k (W ++ [scheduleWord W W.length])

/-- `expand(B)`: the 80 words of the schedule (R71, R72). -/
def expand (B : Block) : List Word := extendSchedule 64 (blockWords B)

end Sys2Proof.Machine
end

