-- ==== Sys2Proof/Machine/Compressor.lean ====
section
/-! DEFINITION. The Compressor and the digest fold (43_compressor.md R75 to R82). -/

namespace Sys2Proof.Machine

/-- `round_fn(t, x, y, z)` (R75), for t in 0..79; past 79 the value is the model's (DESIGN CHOICE, assumption 19). -/
def roundFn (t : Nat) (x y z : Word) : Word :=
  if t < 20 then (x &&& y) ||| (~~~x &&& z)
  else if t < 40 then x ^^^ y ^^^ z
  else if t < 60 then (x &&& y) ||| (x &&& z) ||| (y &&& z)
  else x ^^^ y ^^^ z

/-- `round_constant(t)` (R76), for t in 0..79; past 79 the value is the model's (DESIGN CHOICE, assumption 19). -/
def roundConstant (t : Nat) : Word :=
  if t < 20 then 0x5A827999
  else if t < 40 then 0x6ED9EBA1
  else if t < 60 then 0x8F1BBCDC
  else 0xCA62C1D6

/-- The working variables v0..v4 (R20): local to one compression. -/
structure Working where
  v0 : Word
  v1 : Word
  v2 : Word
  v3 : Word
  v4 : Word
  deriving DecidableEq, Repr

/-- The working variables at the start: the five words of the state (R77). -/
def Working.ofState (h : HashState) : Working :=
  { v0 := h.h0, v1 := h.h1, v2 := h.h2, v3 := h.h3, v4 := h.h4 }

/-- Round t with schedule word `w = W[t]` (R77): a simultaneous assignment. -/
def roundStep (v : Working) (t : Nat) (w : Word) : Working :=
  { v0 := add32 (add32 (add32 (add32 (rotl32 v.v0 5) (roundFn t v.v1 v.v2 v.v3)) v.v4) (roundConstant t)) w
    v1 := v.v0
    v2 := rotl32 v.v1 30
    v3 := v.v2
    v4 := v.v3 }

/-- Rounds t, t+1, ... in order, one for each schedule word given: the first of them is W[t] (R77). -/
def rounds : List Word → Nat → Working → Working
  | [], _, v => v
  | w :: W, t, v => rounds W (t + 1) (roundStep v t w)

/-- `compress(W, H)` of an 80-word schedule (R77): its rounds, then five sums against the state before them (R78).
Of a list of another length the value is the model's (DESIGN CHOICE, assumption 19). -/
@[irreducible] def compress (W : List Word) (h : HashState) : HashState :=
  let v := rounds W 0 (Working.ofState h)
  { h0 := add32 h.h0 v.v0
    h1 := add32 h.h1 v.v1
    h2 := add32 h.h2 v.v2
    h3 := add32 h.h3 v.v3
    h4 := add32 h.h4 v.v4 }

/-- One step of the fold: expand a block and compress it (R81, R82). -/
def foldBlock (h : HashState) (B : Block) : HashState := compress (expand B) h

/-- `digest_state(m)` (R81). Past 2^61 − 1 bytes, where the rules give no digest, its value is the model's (DESIGN CHOICE,
assumption 17). -/
def digestState (m : List Byte) : HashState := (blocks (pad m)).foldl foldBlock HashState.iv

/-- The 20 bytes of a state, `bytes_be32(H0) ++ ... ++ bytes_be32(H4)` (R81, R39(c)). -/
def digestBytes (h : HashState) : List Byte :=
  (bytesBe32 h.h0).toList ++ (bytesBe32 h.h1).toList ++ (bytesBe32 h.h2).toList ++
    (bytesBe32 h.h3).toList ++ (bytesBe32 h.h4).toList

/-- `digest(m)` (R81); past 2^61 − 1 bytes as `digestState` (DESIGN CHOICE, assumption 17). -/
def digest (m : List Byte) : List Byte := digestBytes (digestState m)

end Sys2Proof.Machine
end

