-- ==== Sys2Proof/Config.lean ====
section
/-! DEFINITION. What the spec leaves open, as constants without a body: nothing can be proved of a value of
one of them, so whatever is proved of the machine holds for every value. -/

namespace Sys2Proof

/-- `draw()`, "a free 32-bit value under no law" (R10, R112): the value of draw number `k`. State counts the draws. -/
opaque Config.draw : Nat → Word

/-- LATENCY (R7, R114), "any finite number": how many host steps go before the completion of the `k`-th accepted
command where `State.turns` does not say. It may differ from command to command and has no bound. -/
opaque Config.latency : Nat → Nat

/-- What a host variable holds before any RD statement has written it. R57 does not say (assumption 4). -/
opaque Config.unsetVar : Nat → Word

end Sys2Proof
end

