-- ==== Sys2Proof/Machine/Params.lean ====
section
/-! DEFINITION. The fixed parameters of 00_scope.md R7 that the machine reads. -/

namespace Sys2Proof.Machine

/-- MAX_MSG_BYTES = 2^61 − 1 (R7). -/
def maxMsgBytes : Nat := 2 ^ 61 - 1

/-- ID_VALUE, the ASCII bytes "SHA1" as a big-endian word (R7, R33). -/
def idValue : Word := 0x53484131

/-- The size of the register window in bytes (R34): offsets 0x00 to 0xFF. -/
def windowBytes : Nat := 256

/-- BUS_DATA_BITS / 8: the one access width, in bytes (R7, R37). -/
def accessBytes : Nat := 4

end Sys2Proof.Machine
end

