-- ==== Sys2Proof/Machine/Flags.lean ====
section
/-! DEFINITION. STATUS (10_state.md R32) and the error conditions of single commands (60_exceptions.md R94, R97, R98). -/

namespace Sys2Proof.Machine

/-- The 3-bit code of an error (R94). -/
def ErrorCode.code : ErrorCode → BitVec 3
  | .none => 0
  | .inputTooLarge => 1
  | .invalidBlockLength => 2
  | .sequence => 3
  | .busyViolation => 4
  | .illegalCommand => 5

/-- `STATUS = zext_32(BUFCNT << 8 | ERR << 4 | DONE << 1 | BUSY)` (R32). -/
def statusWord (bufcnt : BitVec 6) (err : BitVec 3) (done busy : Bool) : Word :=
  bufcnt.setWidth 32 <<< 8 ||| err.setWidth 32 <<< 4 |||
    (BitVec.ofBool done).setWidth 32 <<< 1 ||| (BitVec.ofBool busy).setWidth 32

/-- BUFCNT as its 6-bit field (R25, R32). -/
def bufcntField (c : Fin 64) : BitVec 6 := BitVec.ofNat 6 c.val

/-- `LEN / 8`, the number of message bytes absorbed (R26). -/
def messageBytes (len : BitVec 64) : Nat := len.toNat / 8

/-- ABSORB n's own check: INPUT_TOO_LARGE when `LEN / 8 + n > MAX_MSG_BYTES` (R86, R97). -/
def absorbError (n : Nat) (s : State) : Option ErrorCode :=
  if messageBytes s.len + n > maxMsgBytes then some .inputTooLarge else none

/-- BLOCK's own check: INVALID_BLOCK_LENGTH when `BUFCNT ≠ 0` (R86, R98). -/
def blockError (s : State) : Option ErrorCode :=
  if s.bufcnt ≠ 0 then some .invalidBlockLength else none

end Sys2Proof.Machine
end

