-- ==== Sys2Proof/Machine/Ops.lean ====
section
/-! DEFINITION. The named operations over the state: recording an error (60_exceptions.md R95), accepting and finishing
a command (R29), reset (R108), a draw (R10), and the host's own bookkeeping (R57). -/

namespace Sys2Proof.Machine

/-- `raise Error(c)` (R95): "if ERR = 0 then ERR <- c", and nothing else. It is this hardware's whole exception entry:
no control is transferred and nothing is saved (R103), and there is no return (R104). -/
def raiseError (c : ErrorCode) (s : State) : State :=
  { s with err := if s.err = .none then c else s.err }

/-- `PENDING <- p; BUSY <- 1` (R86). The command's number and its wait start here. -/
def accept (p : Pending) (s : State) : State :=
  { s with pending := some p, busy := true, issued := s.issued + 1, waited := 0 }

/-- `BUSY <- 0; PENDING <- none` (R92). -/
def finish (s : State) : State := { s with busy := false, pending := none }

/-- The issue of ABSORB, FINAL or BLOCK in the order of R86: BUSY, the terminal error state, DONE, the command's own
check, and only then acceptance. -/
def issueMessage (own : Option ErrorCode) (p : Pending) (s : State) : State :=
  if s.busy then raiseError .busyViolation s
  else if s.err ≠ .none then s
  else if s.done then raiseError .sequence s
  else match own with
    | some c => raiseError c s
    | none => accept p s

/-- Reset (R108): every state of R18 takes its reset value. The host and the model's own counters are no state of
SHA1CORE and go on (assumption 10). -/
def resetCore (s : State) : State :=
  { State.reset with host := s.host, turns := s.turns, issued := s.issued, draws := s.draws }

/-- The counter after `k` more draws. -/
def countDraws (k : Nat) (s : State) : State := { s with draws := s.draws + k }

/-- A read that is a hazard while busy (R84, R112): exact when BUSY = 0, else `draw()`. -/
def exactWhenIdle (v : Word) (s : State) : Word × State :=
  if s.busy then (Config.draw s.draws, countDraws 1 s) else (v, s)

/-- A write that is dropped with BUSY_VIOLATION while BUSY = 1 (R85, R100). -/
def writeWhenIdle (s t : State) : State := if s.busy then raiseError .busyViolation s else t

/-- The host goes on to its statement number `k`. -/
def hostGoto (k : Nat) (s : State) : State := { s with host := { s.host with pc := k } }

/-- The host stores what an RD statement returned (R57, R115). -/
def hostRecord (var : Nat) (v : Word) (s : State) : State :=
  { s with host := { s.host with reads := (var, v) :: s.host.reads } }

/-- The value of a host variable: its newest read, or the free value of a variable nothing has written. -/
def hostVar (var : Nat) (s : State) : Word := (s.host.reads.lookup var).getD (Config.unsetVar var)

end Sys2Proof.Machine
end

