-- ==== Sys2Proof/Machine/Commands.lean ====
section
/-! DEFINITION. The five commands (44_commands.md R86 to R91). `exec<Command>` is what the host's CMD write does, the
issue; `complete<Command>` is what the core engine does later, in one step (R92). -/

namespace Sys2Proof.Machine

/-- NOP (R87): no effect; BUSY_VIOLATION while busy. -/
def execNop (s : State) : Host.Outcome State Fault Refusal :=
  .next (if s.busy then raiseError .busyViolation s else s)

/-- INIT at issue (R88): accepted whatever ERR and DONE are; BUSY_VIOLATION while busy. -/
def execInit (s : State) : Host.Outcome State Fault Refusal :=
  .next (if s.busy then raiseError .busyViolation s else accept .init s)

/-- ABSORB n at issue (R89): the bytes are latched from DATA_IN in lane order (R41). -/
def execAbsorb (n : Nat) (s : State) : Host.Outcome State Fault Refusal :=
  .next (issueMessage (absorbError n s) (.absorb (absorbBytes s.dataIn s.endian n)) s)

/-- FINAL at issue (R90). -/
def execFinal (s : State) : Host.Outcome State Fault Refusal :=
  .next (issueMessage none .final s)

/-- BLOCK at issue (R91). -/
def execBlock (s : State) : Host.Outcome State Fault Refusal :=
  .next (issueMessage (blockError s) .block s)

/-- INIT's completion (R88). BUF, ENDIAN and DATA_IN stay. -/
def completeInit (s : State) : State :=
  { s with h := HashState.iv, len := 0, bufcnt := 0, done := false, err := .none }

/-- One byte of ABSORB (R89): into BUF, and the block is compressed when it fills. -/
def absorbByte (s : State) (b : Byte) : State :=
  if s.bufcnt = 63 then
    { s with buf := s.buf.set s.bufcnt.val b, h := foldBlock s.h (s.buf.set s.bufcnt.val b), bufcnt := 0 }
  else
    { s with buf := s.buf.set s.bufcnt.val b, bufcnt := s.bufcnt + 1 }

/-- `LEN <- LEN + 8 × n` (R89). -/
def addLength (n : Nat) (s : State) : State := { s with len := s.len + BitVec.ofNat 64 (8 * n) }

/-- ABSORB's completion (R89): the latched bytes in order, then the length. -/
def completeAbsorb (bs : List Byte) (s : State) : State := addLength bs.length (bs.foldl absorbByte s)

/-- One padded block of FINAL (R90): `BUF <- B; H <- compress(expand(B), H)`. -/
def loadBlock (s : State) (B : Block) : State := { s with buf := B, h := foldBlock s.h B }

/-- FINAL's completion (R90): the one or two blocks of the padded tail, then DONE. LEN stays. -/
def completeFinal (s : State) : State :=
  { (blocks (padTail s.buf s.bufcnt s.len)).foldl loadBlock s with bufcnt := 0, done := true }

/-- BLOCK's completion (R91): BUF is compressed and nothing else changes. -/
def completeBlock (s : State) : State := { s with h := foldBlock s.h s.buf }

end Sys2Proof.Machine
end

