-- ==== Sys2Proof/Machine/Engine.lean ====
section
/-! DEFINITION. The core engine's one kind of step (44_commands.md R92). -/

namespace Sys2Proof.Machine

/-- The completion part of a latched command (R88 to R91). -/
def performCommand (p : Pending) (s : State) : State :=
  match p with
  | .init => completeInit s
  | .absorb bs => completeAbsorb bs s
  | .final => completeFinal s
  | .block => completeBlock s

/-- The completion step (R92): perform PENDING, then `BUSY <- 0; PENDING <- none`. With no command latched, which
`State.Inv` rules out while BUSY = 1, nothing is performed (assumption 7). -/
def completeCommand (s : State) : State :=
  match s.pending with
  | some p => finish (performCommand p s)
  | none => finish s

end Sys2Proof.Machine
end

