-- ==== Sys2Proof/Syntax.lean ====
section
/-! DEFINITION. The commands of SHA1CORE, one constructor per row of spec/opcode_table.json (30_encoding.md R52).
The host's own statements (R57) are in Sys2Proof/Machine/HostSyntax.lean: they are not commands. -/

namespace Sys2Proof

/-- A command, the meaning of one legal word written to CMD (R50, R52). -/
inductive Instr where
  /-- NOP, R87 -/
  | nop
  /-- INIT, R88 -/
  | init
  /-- ABSORB n, R89: `n` is the number of message bytes, NBM1 + 1 (R51) -/
  | absorb (n : Nat)
  /-- FINAL, R90 -/
  | final
  /-- BLOCK, R91 -/
  | block
  deriving DecidableEq, Repr

end Sys2Proof
end

