-- ==== Sys2Proof/WellFormed.lean ====
section
/-! DEFINITION. Which commands, accesses and host programs are well formed (R37, R57, R58). -/

namespace Sys2Proof

/-- ABSORB takes 1 to 4 bytes; "`ABSORB` with n outside 1..4 is not a statement" (R58). -/
def Instr.wellFormed : Instr → Bool
  | .absorb n => decide (1 ≤ n) && decide (n ≤ 4)
  | .nop => true
  | .init => true
  | .final => true
  | .block => true

namespace Machine

/-- The accesses the window defines (R37, R34): 32 bits wide, at a multiple of 4, inside the window. -/
def accessWellFormed (bytes off : Nat) : Bool :=
  decide (bytes = accessBytes) && decide (off % 4 = 0) && decide (off < windowBytes)

/-- A statement whose access is one of the window's and whose label the program has (R57). -/
def HostStmt.wellFormed (prog : List Line) : HostStmt → Bool
  | .wr bytes off _ => accessWellFormed bytes off
  | .rd bytes off _ => accessWellFormed bytes off
  | .bnz _ _ label => prog.any (fun l => l.label == some label)
  | .reset => true

/-- A host program: every statement is one (R57), and no label stands on two lines. -/
def programWellFormed (prog : List Line) : Bool :=
  prog.all (fun l => l.stmt.wellFormed prog) && decide (prog.filterMap Line.label).Nodup

end Machine

end Sys2Proof
end

