-- ==== Sys2Proof/Decode.lean ====
section
/-! DEFINITION. The command word (30_encoding.md R50 to R56): decoder, encoder, and the reading of a table row's
word. A word is decoded without any mode (R56), and every word decodes or is rejected by name (R53). -/

namespace Sys2Proof

/-- Why a word is no command (R54). The three classes of R54 overlap; a word is named after the first of them in the
order the decoder looks (assumption 14). No behaviour depends on which. -/
inductive DecodeError where
  /-- RSV ≠ 0 -/
  | reservedBits
  /-- OP in 0x5 to 0xF -/
  | reservedOpcode
  /-- NBM1 ≠ 0 where OP is not ABSORB -/
  | byteCountField
  deriving DecidableEq, Repr

/-- OP, bits 3:0 (R50). -/
def opField (v : Word) : BitVec 4 := v.extractLsb' 0 4

/-- NBM1, bits 5:4 (R50). -/
def nbm1Field (v : Word) : BitVec 2 := v.extractLsb' 4 2

/-- RSV, bits 31:6 (R50). -/
def rsvField (v : Word) : BitVec 26 := v.extractLsb' 6 26

/-- `n = zext_3(NBM1) + 1` (R51). -/
def byteCount (nbm1 : BitVec 2) : Nat := nbm1.toNat + 1

/-- A command that has no byte count: NBM1 must be 0 (R50). -/
def plainCommand (v : Word) (i : Instr) : Except DecodeError Instr :=
  if nbm1Field v = 0 then .ok i else .error .byteCountField

/-- The decoder (R50 to R54). -/
def decode (v : Word) : Except DecodeError Instr :=
  if rsvField v ≠ 0 then .error .reservedBits
  else match (opField v).toNat with
    | 0x0 => plainCommand v .nop
    | 0x1 => plainCommand v .init
    | 0x2 => .ok (.absorb (byteCount (nbm1Field v)))
    | 0x3 => plainCommand v .final
    | 0x4 => plainCommand v .block
    | _ => .error .reservedOpcode

/-- `legal(v)`, word for word (R53). The decoder does not use it; that the two agree is an obligation. -/
def legal (v : Word) : Bool :=
  (rsvField v == 0) &&
    ((opField v == 0x2) || ([0x0, 0x1, 0x3, 0x4].contains (opField v) && (nbm1Field v == 0)))

/-- The three fields of R50 put together: RSV = 0, NBM1, OP. -/
def commandWord (nbm1 : BitVec 2) (op : BitVec 4) : Word := (0 : BitVec 26) ++ nbm1 ++ op

/-- The encoder (R52, R58: `ABSORB n` is `((n−1) << 4) OR 0x2`). -/
def encode : Instr → Word
  | .nop => commandWord 0 0x0
  | .init => commandWord 0 0x1
  | .absorb n => commandWord (BitVec.ofNat 2 (n - 1)) 0x2
  | .final => commandWord 0 0x3
  | .block => commandWord 0 0x4

/-- The instruction the decoder reads from a table row's word. A command is one 32-bit word (R50): bits from
`nbits` up are 0, and a number that does not fit its bits is no word. -/
def decodeTableWord (nbits w : Nat) : Option Instr :=
  if nbits ≤ 32 ∧ w < 2 ^ nbits then (decode (BitVec.ofNat 32 w)).toOption else none

end Sys2Proof
end

