-- ==== Sys2Proof/Machine/Dispatch.lean ====
section
/-! DEFINITION. One arm per command: its meaning at issue. -/

namespace Sys2Proof.Machine

def exec (i : Instr) (s : State) : Host.Outcome State Fault Refusal :=
  match i with
  | .nop => Sys2Proof.Machine.execNop s
  | .init => Sys2Proof.Machine.execInit s
  | .absorb n => Sys2Proof.Machine.execAbsorb n s
  | .final => Sys2Proof.Machine.execFinal s
  | .block => Sys2Proof.Machine.execBlock s

end Sys2Proof.Machine
end

