-- ==== Sys2Proof/Machine/Registers.lean ====
section
/-! DEFINITION. The register window: RegRead (44_commands.md R84), RegWrite (R85) and the issue of a command word (R86). -/

namespace Sys2Proof.Machine

/-- `issue(v)` (R86): BUSY first, then legality (R102), then the command. -/
def issue (v : Word) (s : State) : Host.Outcome State Fault Refusal :=
  match decode v with
  | .ok i => exec i s
  | .error _ => .next (raiseError (if s.busy then .busyViolation else .illegalCommand) s)

/-- STATUS (R32, R84): exact when idle; while busy DONE and BUFCNT are two draws. -/
def readStatus (s : State) : Word × State :=
  if s.busy then
    (statusWord ((Config.draw s.draws).extractLsb' 0 6) s.err.code ((Config.draw (s.draws + 1)).getLsbD 0) true,
      countDraws 2 s)
  else (statusWord (bufcntField s.bufcnt) s.err.code s.done false, s)

/-- The value of a register and the state after the read, in which only draws are counted (R84, R38). -/
def readReg (r : Reg) (s : State) : Word × State :=
  match r with
  | .cmd => (0x00000000, s)
  | .status => readStatus s
  | .config => ((BitVec.ofBool s.endian.bit).setWidth 32, s)
  | .dataIn => (s.dataIn, s)
  | .lenLo => exactWhenIdle (s.len.extractLsb' 0 32) s
  | .lenHi => exactWhenIdle (s.len.extractLsb' 32 32) s
  | .id => (idValue, s)
  | .h i => exactWhenIdle (s.h.get i) s
  | .dout i => exactWhenIdle (laneWord (bytesBe32 (s.h.get i)) s.endian) s
  | .m j => exactWhenIdle (laneWord (Block.quad s.buf j) s.endian) s

/-- `RegRead(off)` (R84): 0 at a reserved offset (R36). DESIGN CHOICE (assumption 18): R84 defines it for multiples of 4
in 0x00..0xFC; at any other number, which no host step reaches (`checkAccess`), this total function gives 0 too. -/
def regRead (off : Nat) (s : State) : Word × State :=
  match Reg.ofOffset off with
  | some r => readReg r s
  | none => (0x00000000, s)

/-- A write to a register by name (R85). The read-only registers ignore it (R36). -/
def writeReg (r : Reg) (v : Word) (s : State) : Host.Outcome State Fault Refusal :=
  match r with
  | .cmd => issue v s
  | .config => .next (writeWhenIdle s { s with endian := LaneOrder.ofBit (v.getLsbD 0) })
  | .dataIn => .next (writeWhenIdle s { s with dataIn := v })
  | .m j => .next (writeWhenIdle s { s with buf := Block.setQuad s.buf j (laneBytes v s.endian) })
  | .status => .next s
  | .lenLo => .next s
  | .lenHi => .next s
  | .id => .next s
  | .h _ => .next s
  | .dout _ => .next s

/-- `RegWrite(off, v)` (R85): ignored at a reserved offset (R36). DESIGN CHOICE (assumption 18): R85 defines it for
multiples of 4 in 0x00..0xFC; at any other number, which no host step reaches, this total function has no effect. -/
def regWrite (off : Nat) (v : Word) (s : State) : Host.Outcome State Fault Refusal :=
  match Reg.ofOffset off with
  | some r => writeReg r v s
  | none => .next s

/-- The accesses the window does not define (R37, R34) stop by name; any other goes on to `k`. -/
def checkAccess (bytes off : Nat) (k : Host.Outcome State Fault Refusal) : Host.Outcome State Fault Refusal :=
  if bytes ≠ accessBytes then .refused (.accessWidth bytes)
  else if off % 4 ≠ 0 then .refused (.accessMisaligned off)
  else if windowBytes ≤ off then .fault (.outsideWindow off)
  else k

end Sys2Proof.Machine
end

