-- ==== Sys2Proof/Machine/HostSteps.lean ====
section
/-! DEFINITION. The host agent's statements (30_encoding.md R57) and whose turn it is (20_memory.md R46,
70_reset_and_hazards.md R114). -/

namespace Sys2Proof.Machine

/-- The line a label names: the first that bears it (R57). -/
def labelLine (prog : List Line) (label : Nat) : Option Nat := prog.findIdx? (fun l => l.label == some label)

/-- One statement of the host (R57). The host's program counter already stands at the next statement. -/
def execStmt (st : HostStmt) (s : State) : Host.Outcome State Fault Refusal :=
  match st with
  | .wr bytes off v => checkAccess bytes off (regWrite off v s)
  | .rd bytes off var => checkAccess bytes off (.next (hostRecord var (regRead off s).1 (regRead off s).2))
  | .bnz var mask label =>
    if hostVar var s &&& mask = 0 then .next s
    else match labelLine s.host.program label with
      | some k => .next (hostGoto k s)
      | none => .refused (.noSuchLabel label)
  | .reset => .next (resetCore s)

/-- The line the host stands at, none when its program has run out (R115). -/
def hostLine (s : State) : Option Line := s.host.program[s.host.pc]?

/-- The host's step: its statement, with its program counter moved past it. -/
def hostStep (s : State) : Host.Outcome State Fault Refusal :=
  match hostLine s with
  | some l => execStmt l.stmt (hostGoto (s.host.pc + 1) s)
  | none => .next s

/-- Both agents can move: a command is pending and the host has a statement left (R46). -/
def contended (s : State) : Bool := s.busy && (hostLine s).isSome

/-- Which agent takes the next step (R4, R46, R92, R114), none when neither can. Where both can, `turns` says, and
beyond it LATENCY: the completion comes after that many host steps. Any order of finitely many host steps and the
completion is one of these (assumption 1). -/
def mover (s : State) : Option Agent :=
  if contended s then
    match s.turns with
    | a :: _ => some a
    | [] => if s.waited < Config.latency s.issued then some .host else some .engine
  else if s.busy then some .engine
  else if (hostLine s).isSome then some .host
  else none

/-- A step taken where both agents could move uses up its turn and counts towards LATENCY. -/
def takeTurn (s : State) : State :=
  { s with
    turns := if contended s then s.turns.tail else s.turns
    waited := if contended s then s.waited + 1 else s.waited }

end Sys2Proof.Machine
end

