-- ==== Sys2Proof/Machine/Step.lean ====
section
/-! DEFINITION. One step of the machine: one host statement or one completion (20_memory.md R46), and how a command
word is put where the next step takes it. -/

namespace Sys2Proof.Machine

/-- One step. Where neither agent can move the core is idle and "no state changes while it is idle" (R107). -/
def step (s : State) : Host.Outcome State Fault Refusal :=
  match mover s with
  | some .host => hostStep (takeTurn s)
  | some .engine => .next (completeCommand (takeTurn s))
  | none => .next s

/-- `s` with a host whose next and only statement is `WR CMD, w`. While a command is pending the next turn is the
host's, so that the very next step is this write. -/
def State.withFetchWord (s : State) (nbits w : Nat) : State :=
  { s with
    host := { s.host with
      program := [{ label := none, stmt := HostStmt.write .cmd (BitVec.ofNat 32 (w % 2 ^ nbits)) }]
      pc := 0 }
    turns := if s.busy then .host :: s.turns else s.turns }

end Sys2Proof.Machine
end

