-- ==== Sys2Proof/Machine/Assembler.lean ====
section
/-! DEFINITION. The host assembler's pseudo-instructions (30_encoding.md R58) and the boot sequence
(70_reset_and_hazards.md R110). -/

namespace Sys2Proof.Machine

/-- A pseudo-instruction (R58). `poll` carries its fresh label and the host variable it reads STATUS into. -/
inductive Pseudo where
  /-- `NOP`, `INIT`, `ABSORB n`, `FINAL` or `BLOCK` -/
  | command (i : Instr)
  | poll (label var : Nat)
  /-- `PUT n, <imm32>` -/
  | put (n : Nat) (v : Word)
  deriving DecidableEq, Repr

/-- A line without a label. -/
def plain (st : HostStmt) : Line := { label := none, stmt := st }

/-- `WR CMD` of a command's word; an ABSORB with n outside 1..4 is refused (R58). -/
def commandLine (i : Instr) : Option (List Line) :=
  if i.wellFormed then some [plain (.write .cmd (encode i))] else none

/-- `L: RD STATUS -> s` then `BNZ s, 0x00000001, L` (R58). -/
def pollLines (label var : Nat) : List Line :=
  [{ label := some label, stmt := .read .status var }, plain (.bnz var 0x00000001 label)]

/-- The expansion of a pseudo-instruction (R58), none where the assembler refuses it. -/
def Pseudo.expand : Pseudo → Option (List Line)
  | .command i => commandLine i
  | .poll label var => some (pollLines label var)
  | .put n v => (commandLine (.absorb n)).map (fun ls => plain (.write .dataIn v) :: ls)

/-- Step 4 of R110: PUT and POLL for each chunk in order, with labels from `label` on. -/
def chunkLines (var : Nat) : Nat → List (Nat × Word) → Option (List Line)
  | _, [] => some []
  | label, (n, v) :: rest => do
    let here ← (Pseudo.put n v).expand
    let more ← chunkLines var (label + 1) rest
    return here ++ pollLines label var ++ more

/-- The boot sequence of R110 for a message given as chunks of a byte count and a DATA_IN word: check ID, write CONFIG,
INIT, the chunks, FINAL, then STATUS and H0..H4 are read, H[i] into variable `var + 1 + i`. -/
def digestProgram (config : Word) (chunks : List (Nat × Word)) (var : Nat) : Option (List Line) := do
  let init ← commandLine .init
  let body ← chunkLines var 2 chunks
  let final ← commandLine .final
  return [plain (.read .id var), plain (.write .config config)]
    ++ init ++ pollLines 0 var
    ++ body
    ++ final ++ pollLines 1 var
    ++ [plain (.read .status var)]
    ++ (List.finRange 5).map (fun i => plain (.read (.h i) (var + 1 + i.val)))

end Sys2Proof.Machine
end

