-- ==== Sys2Proof/Safety.lean ====
section
/-! DEFINITION. What claims speak of: the invariant of the machine, the end and the observation of a run
(70_reset_and_hazards.md R115), and a run that streams a message (44_commands.md R93). -/

namespace Sys2Proof.Machine

/-- What a latched command says of the state, since every check was made at its issue (R86, R92): ABSORB holds 1 to 4
bytes that still fit the length limit (R26, R97), the message is open, and BLOCK finds no partial message (R98). -/
def State.pendingFits (s : State) : Bool :=
  match s.pending with
  | none => true
  | some .init => true
  | some (.absorb bs) =>
    !s.done && decide (1 ≤ bs.length) && decide (bs.length ≤ 4) &&
      decide (messageBytes s.len + bs.length ≤ maxMsgBytes)
  | some .final => !s.done
  | some .block => !s.done && decide (s.bufcnt = 0)

/-- The invariant that every step keeps. -/
structure State.Inv (s : State) : Prop where
  /-- BUSY = 1 exactly while a command is latched (R29) -/
  busy_iff_pending : s.busy = s.pending.isSome
  /-- what the latched command's issue has checked (R86) -/
  pending_fits : s.pendingFits = true
  /-- "LEN is always a multiple of 8" (R26) -/
  len_whole_bytes : s.len.toNat % 8 = 0
  /-- "While DONE = 0 the invariant BUFCNT = (LEN / 8) mod 64 holds" (R26) -/
  bufcnt_of_len : s.done = false → s.bufcnt.val = messageBytes s.len % 64
  /-- FINAL leaves BUFCNT = 0 and nothing is absorbed after it (R90, R99) -/
  bufcnt_when_done : s.done = true → s.bufcnt = 0

/-- `k` steps, to the state after them or to the fault or refusal that ends the run. -/
def steps : Nat → State → Host.Outcome State Fault Refusal
  | 0, s => .next s
  | k + 1, s =>
    match step s with
    | .next t => steps k t
    | .fault f => .fault f
    | .refused r => .refused r

/-- The next step is the host's, and its statement is `st`. -/
def State.hostRuns (s : State) (st : HostStmt) : Prop :=
  mover s = some .host ∧ (hostLine s).map Line.stmt = some st

/-- The next step is the completion of the latched command `p`. -/
def State.enginePerforms (s : State) (p : Pending) : Prop :=
  mover s = some .engine ∧ s.pending = some p

/-- The run has ended: the host's program has run out and BUSY = 0 (R115). -/
def State.ended (s : State) : Bool := (hostLine s).isNone && !s.busy

/-- What is observed of a run at its end (R115). -/
structure Observation where
  status : Word
  lenLo : Word
  lenHi : Word
  h : List Word
  dout : List Word
  m : List Word
  reads : List (Nat × Word)
  deriving DecidableEq, Repr

/-- The observation of a state (R115): the readable registers and what the RD statements returned, oldest first. -/
def State.observe (s : State) : Observation where
  status := (readReg .status s).1
  lenLo := (readReg .lenLo s).1
  lenHi := (readReg .lenHi s).1
  h := (List.finRange 5).map (fun i => (readReg (.h i) s).1)
  dout := (List.finRange 5).map (fun i => (readReg (.dout i) s).1)
  m := (List.finRange 16).map (fun j => (readReg (.m j) s).1)
  reads := s.host.reads.reverse

/-- A message starts here: the state after reset or an INIT completion (R93), whatever BUF, ENDIAN, DATA_IN and the
host are. -/
structure State.MessageStart (s : State) : Prop where
  idle : s.busy = false
  no_command : s.pending = none
  iv : s.h = HashState.iv
  no_length : s.len = 0
  empty : s.bufcnt = 0
  not_done : s.done = false
  no_error : s.err = .none

/-- The statements R93 allows between the start and FINAL: any but a reset, a write to M0..M15, and a CMD write of INIT
or BLOCK. -/
def HostStmt.keepsMessage : HostStmt → Bool
  | .wr _ off v =>
    match Reg.ofOffset off with
    | some (.m _) => false
    | some .cmd => (decode v).toOption != some .init && (decode v).toOption != some .block
    | _ => true
  | .rd _ _ _ => true
  | .bnz _ _ _ => true
  | .reset => false

/-- The runs of R93 up to FINAL's completion, in any interleaving of host steps and completions, with the message whose
bytes have been absorbed so far. The host may do anything that raises no error and that `keepsMessage` allows. -/
inductive Streaming : List Byte → State → Prop where
  /-- from reset or an INIT completion -/
  | start (s : State) : s.MessageStart → Streaming [] s
  /-- a host step -/
  | host (m : List Byte) (s t : State) (st : HostStmt) : Streaming m s → s.hostRuns st → st.keepsMessage = true →
      step s = .next t → t.err = .none → Streaming m t
  /-- the completion of an ABSORB: its latched bytes join the message -/
  | absorb (m : List Byte) (s t : State) (bs : List Byte) : Streaming m s → s.enginePerforms (.absorb bs) →
      step s = .next t → Streaming (m ++ bs) t

end Sys2Proof.Machine
end

