-- ==== Sys2Proof/Certificates/Slice0/Obligations.lean ====
section
/-! DEFINITION. The statements for the provers: what the spec's rules say of the model. -/

open Sys2Proof Sys2Proof.Machine

/-! ### Encoding (30_encoding.md) -/

/-- R52, R58: words written out from the opcode map decode to their commands, and words of R54's classes do not. The
names by which the words are rejected are the model's (assumption 14). -/
def Obligations.OpcodeMapWordsDecode : Prop :=
  decode 0x00000000 = .ok .nop ∧ decode 0x00000001 = .ok .init ∧
  decode 0x00000002 = .ok (.absorb 1) ∧ decode 0x00000012 = .ok (.absorb 2) ∧
  decode 0x00000022 = .ok (.absorb 3) ∧ decode 0x00000032 = .ok (.absorb 4) ∧
  decode 0x00000003 = .ok .final ∧ decode 0x00000004 = .ok .block ∧
  decode 0x00000005 = .error .reservedOpcode ∧ decode 0x0000000F = .error .reservedOpcode ∧
  decode 0x00000011 = .error .byteCountField ∧ decode 0x00000042 = .error .reservedBits

/-- R52: the decoder accepts a word exactly where the opcode map has it, as the command the map gives. -/
def Obligations.DecodeIsTheOpcodeMap : Prop :=
  ∀ (v : Word) (i : Instr), decode v = .ok i ↔
    (v, i) ∈ [((0x00000000 : Word), Instr.nop), (0x00000001, .init), (0x00000002, .absorb 1), (0x00000012, .absorb 2),
      (0x00000022, .absorb 3), (0x00000032, .absorb 4), (0x00000003, .final), (0x00000004, .block)]

/-- R53: `legal` as the rule writes it, that the decoder accepts exactly the legal words, and that these are the 8
words of R52. -/
def Obligations.LegalWordsAreTheEightCommands : Prop :=
  ∀ v : Word,
    (legal v = true ↔ rsvField v = 0 ∧ (opField v = 0x2 ∨
      ((opField v = 0x0 ∨ opField v = 0x1 ∨ opField v = 0x3 ∨ opField v = 0x4) ∧ nbm1Field v = 0))) ∧
    (legal v = true ↔ ∃ i, decode v = .ok i) ∧
    (legal v = true ↔ v ∈ [(0x00000000 : Word), 0x00000001, 0x00000002, 0x00000012, 0x00000022, 0x00000032,
      0x00000003, 0x00000004])

/-- R50 to R52: encoder and decoder agree on every well-formed command and on every word that is a command. -/
def Obligations.DecodeAndEncodeAgree : Prop :=
  (∀ i : Instr, i.wellFormed = true → decode (encode i) = .ok i) ∧
  (∀ (v : Word) (i : Instr), decode v = .ok i → i.wellFormed = true ∧ encode i = v)

/-- R54, R101: an illegal word written while BUSY = 0 records ILLEGAL_COMMAND, if no error stands yet, and does nothing
else; while BUSY = 1 it is a BUSY_VIOLATION. The illegal words are those of R54's list. -/
def Obligations.IllegalWordsOnlyRecordAnError : Prop :=
  ∀ (v : Word) (s : State),
    (legal v = false ↔ 0x5 ≤ (opField v).toNat ∨
      ((opField v = 0x0 ∨ opField v = 0x1 ∨ opField v = 0x3 ∨ opField v = 0x4) ∧ nbm1Field v ≠ 0) ∨
      rsvField v ≠ 0) ∧
    (legal v = false →
      (s.busy = false → s.err = .none → issue v s = .next { s with err := .illegalCommand }) ∧
      (s.busy = false → s.err ≠ .none → issue v s = .next s) ∧
      (s.busy = true → s.err = .none → issue v s = .next { s with err := .busyViolation }) ∧
      (s.busy = true → s.err ≠ .none → issue v s = .next s))

/-! ### Words and bytes (00_scope.md, 20_memory.md) -/

/-- R13: the formula of the rule, a rotation moves bit j to bit (j + n) mod 32, 0 and 32 are the identity, and only
n mod 32 counts. -/
def Obligations.RotationMovesEveryBit : Prop :=
  ∀ (x : Word) (n : Nat),
    (n ≤ 31 → (rotl32 x n).toNat = (x.toNat * 2 ^ n ||| x.toNat / 2 ^ (32 - n)) % 2 ^ 32) ∧
    (∀ j, j < 32 → (rotl32 x n).getLsbD ((j + n) % 32) = x.getLsbD j) ∧
    rotl32 x n = rotl32 x (n % 32) ∧ rotl32 x 0 = x ∧ rotl32 x 32 = x

/-- R14, R15: `be32` as the weighted sum of its bytes, its inverse, and the byte swap. -/
def Obligations.WordAssemblyIsBigEndian : Prop :=
  (∀ b : Vector Byte 4, (be32 b).toNat =
      b[0].toNat * 2 ^ 24 + b[1].toNat * 2 ^ 16 + b[2].toNat * 2 ^ 8 + b[3].toNat ∧ bytesBe32 (be32 b) = b) ∧
  (∀ w : Word, be32 (bytesBe32 w) = w ∧ bswap32 (bswap32 w) = w ∧
    bytesBe32 (bswap32 w) = (bytesBe32 w).reverse) ∧
  (∀ n : BitVec 64, (be64 n).length = 8 ∧
    ∀ k, k < 8 → (be64 n).getD k 0 = n.extractLsb' (56 - 8 * k) 8)

/-- R40: the two lane orders byte by byte, and that reading back what was laid out gives the word. -/
def Obligations.LaneOrdersRoundTrip : Prop :=
  ∀ (v : Word) (e : LaneOrder) (b : Vector Byte 4),
    laneBytes v .big = #v[v.extractLsb' 24 8, v.extractLsb' 16 8, v.extractLsb' 8 8, v.extractLsb' 0 8] ∧
    laneBytes v .little = #v[v.extractLsb' 0 8, v.extractLsb' 8 8, v.extractLsb' 16 8, v.extractLsb' 24 8] ∧
    laneWord b .big = be32 b ∧ laneWord b .little = be32 #v[b[3], b[2], b[1], b[0]] ∧
    laneWord b .little = bswap32 (be32 b) ∧
    laneWord (laneBytes v e) e = v ∧ laneBytes (laneWord b e) e = b

/-! ### Padder, BlockParser, ScheduleExpander, Compressor (40 to 43) -/

/-- R60: the zero fill is (55 − L) mod 64 as the non-negative residue, and it is the least k with
(L + 1 + k + 8) mod 64 = 0, so it is below 64. -/
def Obligations.ZeroFillIsLeast : Prop :=
  ∀ L : Nat, (zeroFill L : Int) = (55 - (L : Int)) % 64 ∧ (L + 1 + zeroFill L + 8) % 64 = 0 ∧
    (∀ k, (L + 1 + k + 8) % 64 = 0 → zeroFill L ≤ k) ∧ zeroFill L < 64

/-- R61, R62: the length of a padded message and its number of blocks, its prefix, its marker, its zeros and its length
field, and that no spare block is added. -/
def Obligations.PaddedMessageInvariants : Prop :=
  ∀ m : List Byte, m.length ≤ 2 ^ 61 - 1 →
    (pad m).length = 64 * ((m.length + 9 + 63) / 64) ∧ (blocks (pad m)).length = (m.length + 9 + 63) / 64 ∧
    (pad m).take m.length = m ∧
    (pad m).getD m.length 0 = 0x80 ∧
    (∀ k, m.length < k → k < (pad m).length - 8 → (pad m).getD k 0 = 0x00) ∧
    ((pad m).drop ((pad m).length - 8)).foldl (fun a b => 256 * a + b.toNat) 0 = 8 * m.length ∧
    ((m.length + 9) % 64 = 0 → pad m = m ++ [0x80] ++ be64 (BitVec.ofNat 64 (8 * m.length)))

/-- R65: what FINAL pads with is the end of the padded message, 64 bytes where BUFCNT ≤ 55 and else 128, and its blocks
are the last blocks of the padded message. Of a message past 2^61 − 1 bytes, where the rules give `pad` no value, it says
only how the model's own functions agree (assumption 17). -/
def Obligations.PadTailIsTheEndOfPad : Prop :=
  ∀ (m : List Byte) (B : Block) (c : Fin 64), c.val = m.length % 64 →
    B.toList.take c.val = m.drop (m.length - c.val) →
    pad m = m.take (m.length - c.val) ++ padTail B c (BitVec.ofNat 64 (8 * m.length)) ∧
    (padTail B c (BitVec.ofNat 64 (8 * m.length))).length = (if c.val ≤ 55 then 64 else 128) ∧
    blocks (pad m) = blocks (m.take (m.length - c.val)) ++ blocks (padTail B c (BitVec.ofNat 64 (8 * m.length)))

/-- R66, R67: `parse` fails exactly where the length is no multiple of 64; otherwise block i is the bytes from 64·i on,
in order, and there are len/64 of them. -/
def Obligations.ParseSlicesInOrder : Prop :=
  ∀ p : List Byte,
    (p.length % 64 ≠ 0 → parse p = .error .invalidBlockLength) ∧
    (p.length % 64 = 0 → ∃ bs, parse p = .ok bs ∧ bs = blocks p ∧ bs.length = p.length / 64 ∧
      ∀ i (k : Fin 64), i < bs.length → (bs[i]?).map (fun B => B[k.val]) = p[64 * i + k.val]?)

/-- R71, R72: the 80 words of the schedule. -/
def Obligations.ScheduleRecurrence : Prop :=
  ∀ B : Block, (expand B).length = 80 ∧
    (∀ t : Fin 16, (expand B).getD t.val 0 =
      be32 #v[B[4 * t.val], B[4 * t.val + 1], B[4 * t.val + 2], B[4 * t.val + 3]]) ∧
    (∀ t, 16 ≤ t → t < 80 → (expand B).getD t 0 =
      rotl32 ((expand B).getD (t - 3) 0 ^^^ (expand B).getD (t - 8) 0 ^^^
        (expand B).getD (t - 14) 0 ^^^ (expand B).getD (t - 16) 0) 1)

/-- R75, R76: the round function and the constant of each phase. -/
def Obligations.RoundPhases : Prop :=
  ∀ (t : Nat) (x y z : Word),
    (t ≤ 19 → roundFn t x y z = ((x &&& y) ||| ((x ^^^ 0xFFFFFFFF) &&& z)) ∧ roundConstant t = 0x5A827999) ∧
    (20 ≤ t → t ≤ 39 → roundFn t x y z = x ^^^ y ^^^ z ∧ roundConstant t = 0x6ED9EBA1) ∧
    (40 ≤ t → t ≤ 59 → roundFn t x y z = ((x &&& y) ||| (x &&& z) ||| (y &&& z)) ∧ roundConstant t = 0x8F1BBCDC) ∧
    (60 ≤ t → t ≤ 79 → roundFn t x y z = x ^^^ y ^^^ z ∧ roundConstant t = 0xCA62C1D6)

/-- R77, R78: the working variables start from the state, each round is the simultaneous assignment of R77 on the
variables the rounds before left, and the result is the sums, modulo 2^32, against the state before the rounds. -/
def Obligations.CompressIsEightyRounds : Prop :=
  ∀ (W : List Word) (h : HashState), W.length = 80 →
    rounds (W.take 0) 0 (Working.ofState h) = { v0 := h.h0, v1 := h.h1, v2 := h.h2, v3 := h.h3, v4 := h.h4 } ∧
    (∀ t, t < 80 → ∃ v w : Working, rounds (W.take t) 0 (Working.ofState h) = v ∧
      rounds (W.take (t + 1)) 0 (Working.ofState h) = w ∧
      w.v0 = rotl32 v.v0 5 + roundFn t v.v1 v.v2 v.v3 + v.v4 + roundConstant t + W.getD t 0 ∧
      w.v1 = v.v0 ∧ w.v2 = rotl32 v.v1 30 ∧ w.v3 = v.v2 ∧ w.v4 = v.v3) ∧
    (∃ v : Working, rounds (W.take 80) 0 (Working.ofState h) = v ∧
      (compress W h).h0.toNat = (h.h0.toNat + v.v0.toNat) % 2 ^ 32 ∧
      (compress W h).h1.toNat = (h.h1.toNat + v.v1.toNat) % 2 ^ 32 ∧
      (compress W h).h2.toNat = (h.h2.toNat + v.v2.toNat) % 2 ^ 32 ∧
      (compress W h).h3.toNat = (h.h3.toNat + v.v3.toNat) % 2 ^ 32 ∧
      (compress W h).h4.toNat = (h.h4.toNat + v.v4.toNat) % 2 ^ 32)

/-- R81, R39(c): the digest is the fold of the padded message's blocks from the IV, 20 bytes, and byte 4i + k of it is
`H[i][31−8k : 24−8k]`. Of a message past 2^61 − 1 bytes, which the rules give no digest, it speaks of the model's own
functions (assumption 17). -/
def Obligations.DigestIsTheFoldOfThePaddedBlocks : Prop :=
  ∀ m : List Byte,
    (∃ bs, parse (pad m) = .ok bs ∧
      digestState m = bs.foldl (fun h B => compress (expand B) h) HashState.iv) ∧
    (digest m).length = 20 ∧
    ∀ (i : Fin 5) (k : Fin 4), (digest m).getD (4 * i.val + k.val) 0 =
      ((digestState m).get i).extractLsb' (24 - 8 * k.val) 8

/-! ### Commands (44_commands.md): issue and completion -/

/-- R87: NOP with BUSY = 0 answers the same state, in every state of ERR and DONE; with BUSY = 1 it is a BUSY_VIOLATION;
and only the word 0x00000000 is NOP. -/
def Obligations.NopChangesNothing : Prop :=
  ∀ s : State, (s.busy = false → exec .nop s = .next s) ∧
    (s.busy = true → exec .nop s = .next { s with err := if s.err = .none then .busyViolation else s.err }) ∧
    ∀ v, decode v = .ok .nop → v = 0x00000000

/-- R88: INIT with BUSY = 0 is accepted whatever ERR and DONE are, and its completion loads the IV and clears LEN,
BUFCNT, DONE and ERR, an error recorded since the issue too; BUF, ENDIAN, DATA_IN and the host stay. With BUSY = 1 it
is a BUSY_VIOLATION. `issued` and `waited` are the model's own counters (assumptions 6 and 15). -/
def Obligations.InitIsAcceptedAndRestarts : Prop :=
  ∀ s : State, (s.busy = false → ∃ t : State, exec .init s = .next t ∧
      t = { s with busy := true, pending := some .init, issued := s.issued + 1, waited := 0 } ∧
      ∀ c, completeCommand { t with err := c } = { s with
        h := { h0 := 0x67452301, h1 := 0xEFCDAB89, h2 := 0x98BADCFE, h3 := 0x10325476, h4 := 0xC3D2E1F0 }
        len := 0, bufcnt := 0, done := false, err := .none
        busy := false, pending := none, issued := s.issued + 1, waited := 0 }) ∧
    (s.busy = true → exec .init s = .next { s with err := if s.err = .none then .busyViolation else s.err })

/-- R89, issue: ABSORB n that passes every check latches the first n lane bytes of DATA_IN and sets BUSY. Its
completion is `AbsorbCompletionFillsTheBuffer`. `issued` and `waited` are the model's own counters (assumptions 6 and
15). -/
def Obligations.AbsorbIsAcceptedAndLatches : Prop :=
  ∀ (n : Nat) (s : State), (Instr.absorb n).wellFormed = true → s.busy = false → s.err = .none → s.done = false →
    s.len.toNat / 8 + n ≤ 2 ^ 61 - 1 → ∃ t : State, exec (.absorb n) s = .next t ∧
      t = { s with busy := true, pending := some (.absorb ((laneBytes s.dataIn s.endian).toList.take n)),
                   issued := s.issued + 1, waited := 0 } ∧
      ∃ bs, t.pending = some (.absorb bs) ∧ bs.length = n ∧
        ∀ k (hk : k < 4), k < n → bs.getD k 0 = (laneBytes s.dataIn s.endian)[k]

/-- R89, issue and completion: with n bytes `b`, latched from DATA_IN, and c = BUFCNT, where c + n < 64 the bytes go
to BUF[c..c+n) and H stays; where c + n ≥ 64 the first 64 − c complete the block, it is compressed, and the rest go
to BUF[0..c+n−64). LEN grows by 8n, and nothing else of SHA1CORE changes. `issued` and `waited` are the model's own
counters (assumptions 6 and 15). -/
def Obligations.AbsorbCompletionFillsTheBuffer : Prop :=
  ∀ (n : Nat) (s : State), (Instr.absorb n).wellFormed = true → s.busy = false → s.err = .none → s.done = false →
    s.len.toNat / 8 + n ≤ 2 ^ 61 - 1 → ∃ t u : State, exec (.absorb n) s = .next t ∧ completeCommand t = u ∧
      u = { s with h := u.h, buf := u.buf, bufcnt := u.bufcnt, len := s.len + BitVec.ofNat 64 (8 * n),
                   busy := false, pending := none, issued := s.issued + 1, waited := 0 } ∧
      ∃ b : Nat → Byte, (∀ k (hk : k < 4), b k = (laneBytes s.dataIn s.endian)[k]) ∧
        (s.bufcnt.val + n < 64 → u.h = s.h ∧ u.bufcnt.val = s.bufcnt.val + n ∧
          ∀ k : Fin 64, u.buf[k.val] =
            if s.bufcnt.val ≤ k.val ∧ k.val < s.bufcnt.val + n then b (k.val - s.bufcnt.val) else s.buf[k.val]) ∧
        (64 ≤ s.bufcnt.val + n → u.bufcnt.val = s.bufcnt.val + n - 64 ∧
          (∃ B : Block, u.h = compress (expand B) s.h ∧ ∀ k : Fin 64, B[k.val] =
            if k.val < s.bufcnt.val then s.buf[k.val] else b (k.val - s.bufcnt.val)) ∧
          ∀ k : Fin 64, u.buf[k.val] =
            if k.val < s.bufcnt.val + n - 64 then b (64 - s.bufcnt.val + k.val)
            else if k.val < s.bufcnt.val then s.buf[k.val] else b (k.val - s.bufcnt.val))

/-- R90: FINAL that passes its checks is accepted, and its completion compresses one block where BUFCNT ≤ 55 and two
where BUFCNT ≥ 56: the buffered bytes, 0x80, zeros, and LEN in the last 8 bytes. BUF holds the last of them, BUFCNT =
0, DONE = 1, and nothing else changes. `issued` and `waited` are the model's own counters (assumptions 6 and 15). -/
def Obligations.FinalPadsAndFinishes : Prop :=
  ∀ s : State, s.busy = false → s.err = .none → s.done = false → ∃ t u : State, exec .final s = .next t ∧
    t = { s with busy := true, pending := some .final, issued := s.issued + 1, waited := 0 } ∧
    completeCommand t = u ∧
    u = { s with h := u.h, buf := u.buf, bufcnt := 0, done := true,
                 busy := false, pending := none, issued := s.issued + 1, waited := 0 } ∧
    (s.bufcnt.val ≤ 55 →
      u.buf.toList = s.buf.toList.take s.bufcnt.val ++ [0x80] ++ List.replicate (55 - s.bufcnt.val) 0x00 ++ be64 s.len ∧
      u.h = compress (expand u.buf) s.h) ∧
    (56 ≤ s.bufcnt.val →
      u.buf.toList = List.replicate 56 0x00 ++ be64 s.len ∧
      ∃ B : Block, B.toList = s.buf.toList.take s.bufcnt.val ++ [0x80] ++ List.replicate (63 - s.bufcnt.val) 0x00 ∧
        u.h = compress (expand u.buf) (compress (expand B) s.h))

/-- R91: BLOCK that passes its checks is accepted, and its completion compresses BUF into H and changes nothing else.
`issued` and `waited` are the model's own counters (assumptions 6 and 15). -/
def Obligations.BlockCompressesTheBuffer : Prop :=
  ∀ s : State, s.busy = false → s.err = .none → s.done = false → s.bufcnt = 0 → ∃ t : State,
    exec .block s = .next t ∧
    t = { s with busy := true, pending := some .block, issued := s.issued + 1, waited := 0 } ∧
    completeCommand t = { s with h := compress (expand s.buf) s.h,
                                 busy := false, pending := none, issued := s.issued + 1, waited := 0 }

/-- R86, R102: what a CMD write does, by the rule's own chain of checks on the word's fields and the state. `issued`
and `waited` are the model's own counters (assumptions 6 and 15). -/
def Obligations.IssueFollowsThePriority : Prop :=
  ∀ (v : Word) (s : State), issue v s = .next (
    if s.busy = true then { s with err := if s.err = .none then .busyViolation else s.err }
    else if legal v = false then { s with err := if s.err = .none then .illegalCommand else s.err }
    else if opField v = 0x0 then s
    else if opField v = 0x1 then { s with busy := true, pending := some .init, issued := s.issued + 1, waited := 0 }
    else if s.err ≠ .none then s
    else if s.done = true then { s with err := .sequence }
    else if opField v = 0x2 then
      if 2 ^ 61 - 1 < s.len.toNat / 8 + ((nbm1Field v).toNat + 1) then { s with err := .inputTooLarge }
      else { s with
        busy := true
        pending := some (.absorb ((laneBytes s.dataIn s.endian).toList.take ((nbm1Field v).toNat + 1)))
        issued := s.issued + 1, waited := 0 }
    else if opField v = 0x3 then { s with busy := true, pending := some .final, issued := s.issued + 1, waited := 0 }
    else if s.bufcnt ≠ 0 then { s with err := .invalidBlockLength }
    else { s with busy := true, pending := some .block, issued := s.issued + 1, waited := 0 })

/-- R100: every write to CMD (legal or not), CONFIG, DATA_IN or an M register while BUSY = 1, and every command,
records BUSY_VIOLATION if no error stands yet and does nothing else; a read raises none. The command in flight still
completes, and only INIT's completion clears the code. Of an ABSORB whose n is outside 1..4, which is no statement of
R58 and which no word decodes to, it speaks of the model's own treatment of the term (assumption 9). At a number that
is no multiple of 4 in 0x00..0xFC, where R84 gives no value, what it says is the model's choice (assumption 18). -/
def Obligations.WritesWhileBusyAreViolations : Prop :=
  ∀ s : State, s.busy = true → ∃ t : State, t = { s with err := if s.err = .none then .busyViolation else s.err } ∧
    (∀ v, regWrite 0x00 v s = .next t ∧ regWrite 0x08 v s = .next t ∧ regWrite 0x0C v s = .next t ∧
      ∀ j : Fin 16, regWrite (0x80 + 4 * j.val) v s = .next t) ∧
    (∀ i, exec i s = .next t) ∧
    (∀ off, (regRead off s).2.err = s.err) ∧
    (∀ p, s.pending = some p → completeCommand t =
      { completeCommand s with err := if p = .init then .none else t.err })

/-- R96, R86: in the terminal error state ABSORB, FINAL and BLOCK are ignored with no new code. Of an ABSORB whose n
is outside 1..4, which is no statement of R58 and which no word decodes to, it speaks of the model's own treatment of
the term (assumption 9). -/
def Obligations.TerminalErrorIgnoresMessageCommands : Prop :=
  ∀ (s : State) (n : Nat), s.busy = false → s.err ≠ .none →
    exec (.absorb n) s = .next s ∧ exec .final s = .next s ∧ exec .block s = .next s

/-- R99: after FINAL and before INIT, ABSORB, FINAL and BLOCK record SEQUENCE and do nothing else. Of an ABSORB whose
n is outside 1..4, which is no statement of R58 and which no word decodes to, it speaks of the model's own treatment
of the term (assumption 9). -/
def Obligations.MessageCommandsAfterFinalAreSequenceErrors : Prop :=
  ∀ (s : State) (n : Nat), s.busy = false → s.err = .none → s.done = true →
    exec (.absorb n) s = .next { s with err := .sequence } ∧
    exec .final s = .next { s with err := .sequence } ∧
    exec .block s = .next { s with err := .sequence }

/-- R97, R98: the two errors of the algorithm. An ABSORB that would take the message past 2^61 − 1 bytes and a BLOCK
on a partial message record their code and do nothing else. Of an ABSORB whose n is outside 1..4, which is no
statement of R58 and which no word decodes to, it speaks of the model's own treatment of the term (assumption 9). -/
def Obligations.LengthAndBlockErrors : Prop :=
  ∀ (s : State) (n : Nat), s.busy = false → s.err = .none → s.done = false →
    (2 ^ 61 - 1 < s.len.toNat / 8 + n → exec (.absorb n) s = .next { s with err := .inputTooLarge }) ∧
    (s.bufcnt.val ≠ 0 → exec .block s = .next { s with err := .invalidBlockLength })

/-! ### The register window (20_memory.md, 44_commands.md) -/

/-- R35: each register is at its offset and at no other, and the offsets are those of the map. -/
def Obligations.RegisterMapIsOneToOne : Prop :=
  (∀ (off : Nat) (r : Reg), Reg.ofOffset off = some r ↔ r.offset = off) ∧
  (∀ off, off % 4 = 0 → off < 256 → (Reg.ofOffset off = none ↔
    off = 0x1C ∨ (0x34 ≤ off ∧ off ≤ 0x3C) ∨ (0x54 ≤ off ∧ off ≤ 0x7C) ∨ 0xC0 ≤ off)) ∧
  Reg.ofOffset 0x00 = some .cmd ∧ Reg.ofOffset 0x04 = some .status ∧ Reg.ofOffset 0x08 = some .config ∧
  Reg.ofOffset 0x0C = some .dataIn ∧ Reg.ofOffset 0x10 = some .lenLo ∧ Reg.ofOffset 0x14 = some .lenHi ∧
  Reg.ofOffset 0x18 = some .id ∧ (∀ i : Fin 5, Reg.ofOffset (0x20 + 4 * i.val) = some (.h i)) ∧
  (∀ i : Fin 5, Reg.ofOffset (0x40 + 4 * i.val) = some (.dout i)) ∧
  (∀ j : Fin 16, Reg.ofOffset (0x80 + 4 * j.val) = some (.m j))

/-- R37, R34: a host access that is not 32 bits wide, or not at a multiple of 4, is refused; one past the window faults;
in the window it goes on. The names of the stops and their order are the model's (assumption 5). -/
def Obligations.AccessesOutsideTheWindowStop : Prop :=
  ∀ (s : State) (bytes off var : Nat) (v : Word),
    (bytes ≠ 4 → execStmt (.wr bytes off v) s = .refused (.accessWidth bytes) ∧
      execStmt (.rd bytes off var) s = .refused (.accessWidth bytes)) ∧
    (bytes = 4 → off % 4 ≠ 0 → execStmt (.wr bytes off v) s = .refused (.accessMisaligned off) ∧
      execStmt (.rd bytes off var) s = .refused (.accessMisaligned off)) ∧
    (bytes = 4 → off % 4 = 0 → 256 ≤ off → execStmt (.wr bytes off v) s = .fault (.outsideWindow off) ∧
      execStmt (.rd bytes off var) s = .fault (.outsideWindow off)) ∧
    (bytes = 4 → off % 4 = 0 → off < 256 → execStmt (.wr bytes off v) s = regWrite off v s ∧
      execStmt (.rd bytes off var) s = .next (hostRecord var (regRead off s).1 (regRead off s).2))

/-- R32, R94: the fields of STATUS, each at its bits; BUSY and ERR exact at all times, ERR as the number R94 gives each
error, DONE and BUFCNT when BUSY = 0; the reserved bits are 0, and a write is ignored. -/
def Obligations.StatusFieldsStandAtTheirBits : Prop :=
  ∀ (s : State) (v : Word), ∃ w : Word, (regRead 0x04 s).1 = w ∧
    w.getLsbD 0 = s.busy ∧ w.extractLsb' 2 2 = 0 ∧ w.extractLsb' 4 3 = s.err.code ∧ w.getLsbD 7 = false ∧
    w.extractLsb' 14 18 = 0 ∧
    (s.err = .none → w.extractLsb' 4 3 = 0) ∧ (s.err = .inputTooLarge → w.extractLsb' 4 3 = 1) ∧
    (s.err = .invalidBlockLength → w.extractLsb' 4 3 = 2) ∧ (s.err = .sequence → w.extractLsb' 4 3 = 3) ∧
    (s.err = .busyViolation → w.extractLsb' 4 3 = 4) ∧ (s.err = .illegalCommand → w.extractLsb' 4 3 = 5) ∧
    (s.busy = false → w.getLsbD 1 = s.done ∧ (w.extractLsb' 8 6).toNat = s.bufcnt.val) ∧
    regWrite 0x04 v s = .next s

/-- R84, R44, R36: what every offset of the window reads with BUSY = 0; the read changes nothing. At a number that is
no multiple of 4 in 0x00..0xFC, where R84 gives no value, what it says is the model's choice (assumption 18). -/
def Obligations.IdleReadsAreExact : Prop :=
  ∀ s : State, s.busy = false →
    regRead 0x00 s = (0, s) ∧
    regRead 0x04 s = (statusWord (BitVec.ofNat 6 s.bufcnt.val) s.err.code s.done false, s) ∧
    regRead 0x08 s = ((if s.endian = .little then 1 else 0), s) ∧
    regRead 0x0C s = (s.dataIn, s) ∧
    regRead 0x10 s = (s.len.extractLsb' 0 32, s) ∧
    regRead 0x14 s = (s.len.extractLsb' 32 32, s) ∧
    regRead 0x18 s = (0x53484131, s) ∧
    regRead 0x20 s = (s.h.h0, s) ∧ regRead 0x24 s = (s.h.h1, s) ∧ regRead 0x28 s = (s.h.h2, s) ∧
    regRead 0x2C s = (s.h.h3, s) ∧ regRead 0x30 s = (s.h.h4, s) ∧
    (∀ i : Fin 5, regRead (0x20 + 4 * i.val) s = (s.h.get i, s)) ∧
    (∀ i : Fin 5, regRead (0x40 + 4 * i.val) s =
      ((if s.endian = .little then bswap32 (s.h.get i) else s.h.get i), s)) ∧
    (∀ j : Fin 16, regRead (0x80 + 4 * j.val) s = (laneWord
      #v[s.buf[4 * j.val], s.buf[4 * j.val + 1], s.buf[4 * j.val + 2], s.buf[4 * j.val + 3]] s.endian, s)) ∧
    (∀ off, Reg.ofOffset off = none → regRead off s = (0, s))

/-- R112, R111, R84: while BUSY = 1 the reads of H, DOUT, M and LEN are draws, STATUS shows BUSY = 1, ERR exactly, DONE
and BUFCNT as draws and the reserved bits 0, and the other registers read exactly. A draw is named by the model's draw
counter (assumption 2); nothing is known of its value. Every such read takes fresh draws: the state after it has the
counter past the one draw of H, DOUT, M, LEN_LO and LEN_HI or the two of STATUS, and is otherwise the same. -/
def Obligations.BusyReadsAreDraws : Prop :=
  ∀ s : State, s.busy = true →
    (∀ i : Fin 5, (readReg (.h i) s).1 = Config.draw s.draws ∧ (readReg (.dout i) s).1 = Config.draw s.draws) ∧
    (∀ j : Fin 16, (readReg (.m j) s).1 = Config.draw s.draws) ∧
    (readReg .lenLo s).1 = Config.draw s.draws ∧ (readReg .lenHi s).1 = Config.draw s.draws ∧
    (readReg .status s).1.getLsbD 0 = true ∧ (readReg .status s).1.extractLsb' 4 3 = s.err.code ∧
    (readReg .status s).1.extractLsb' 8 6 = (Config.draw s.draws).extractLsb' 0 6 ∧
    (readReg .status s).1.getLsbD 1 = (Config.draw (s.draws + 1)).getLsbD 0 ∧
    (readReg .status s).1.extractLsb' 2 2 = 0 ∧ (readReg .status s).1.getLsbD 7 = false ∧
    (readReg .status s).1.extractLsb' 14 18 = 0 ∧
    (∀ i : Fin 5, (readReg (.h i) s).2 = countDraws 1 s ∧ (readReg (.dout i) s).2 = countDraws 1 s) ∧
    (∀ j : Fin 16, (readReg (.m j) s).2 = countDraws 1 s) ∧
    (readReg .lenLo s).2 = countDraws 1 s ∧ (readReg .lenHi s).2 = countDraws 1 s ∧
    (readReg .status s).2 = countDraws 2 s ∧ (∀ k, (countDraws k s).draws = s.draws + k) ∧
    readReg .cmd s = (0, s) ∧ readReg .config s = ((if s.endian = .little then 1 else 0), s) ∧
    readReg .dataIn s = (s.dataIn, s) ∧ readReg .id s = (0x53484131, s)

/-- R38: a read of any offset changes no state of SHA1CORE and none of the host's; only draws are counted, and with
BUSY = 0 not even those, so that the same read gives the same value again. The count of draws is the model's
(assumption 2). At a number that is no multiple of 4 in 0x00..0xFC, where R84 gives no value, what it says is the
model's choice (assumption 18). -/
def Obligations.ReadsHaveNoSideEffect : Prop :=
  ∀ (off : Nat) (s : State), (∃ k, k ≤ 2 ∧ (regRead off s).2 = { s with draws := s.draws + k }) ∧
    (s.busy = false → (regRead off s).2 = s)

/-- R36: a read at a reserved offset gives 0, and a write to a read-only register or a reserved offset changes nothing,
whether or not BUSY = 1. -/
def Obligations.ReadOnlyAndReservedWritesAreIgnored : Prop :=
  ∀ (s : State) (v : Word),
    regWrite 0x04 v s = .next s ∧ regWrite 0x10 v s = .next s ∧ regWrite 0x14 v s = .next s ∧
    regWrite 0x18 v s = .next s ∧ (∀ i : Fin 5, regWrite (0x20 + 4 * i.val) v s = .next s) ∧
    (∀ i : Fin 5, regWrite (0x40 + 4 * i.val) v s = .next s) ∧
    (∀ off, off % 4 = 0 → (off = 0x1C ∨ (0x34 ≤ off ∧ off ≤ 0x3C) ∨ (0x54 ≤ off ∧ off ≤ 0x7C) ∨
      (0xC0 ≤ off ∧ off ≤ 0xFC)) → regWrite off v s = .next s ∧ regRead off s = (0x00000000, s))

/-- R30, R31: a write to CONFIG sets ENDIAN to bit 0 and nothing else, a write to DATA_IN sets it and nothing else;
while BUSY = 1 they are dropped with BUSY_VIOLATION. Both read exactly at all times, CONFIG's other bits as 0; INIT leaves
both, and reset gives ENDIAN = 0 and DATA_IN = 0. -/
def Obligations.ConfigAndDataInWrites : Prop :=
  State.reset.endian = .big ∧ State.reset.dataIn = 0x00000000 ∧
  ∀ (s : State) (v : Word),
    (s.busy = false → regWrite 0x08 v s = .next { s with endian := if v.getLsbD 0 then .little else .big } ∧
      regWrite 0x0C v s = .next { s with dataIn := v }) ∧
    (s.busy = true →
      regWrite 0x08 v s = .next { s with err := if s.err = .none then .busyViolation else s.err } ∧
      regWrite 0x0C v s = .next { s with err := if s.err = .none then .busyViolation else s.err }) ∧
    regRead 0x08 s = ((if s.endian = .little then 0x00000001 else 0x00000000), s) ∧ regRead 0x0C s = (s.dataIn, s) ∧
    (s.pending = some .init → (completeCommand s).endian = s.endian ∧ (completeCommand s).dataIn = s.dataIn)

/-- R42: a write to Mj lays its four lane bytes into BUF[4j..4j+4), leaves every other byte and everything else, and
reads back; with big-endian lanes Mj is word j of the schedule. While BUSY = 1 the write is dropped with
BUSY_VIOLATION. -/
def Obligations.BlockWindowWrites : Prop :=
  ∀ (s : State) (v : Word) (j : Fin 16),
    (s.busy = false → ∃ t : State, regWrite (0x80 + 4 * j.val) v s = .next t ∧ t = { s with buf := t.buf } ∧
      (∀ k : Fin 4, t.buf[4 * j.val + k.val] = (laneBytes v s.endian)[k.val]) ∧
      (∀ i : Fin 64, (i.val < 4 * j.val ∨ 4 * j.val + 4 ≤ i.val) → t.buf[i.val] = s.buf[i.val]) ∧
      regRead (0x80 + 4 * j.val) t = (v, t) ∧
      (s.endian = .big → (expand t.buf).getD j.val 0 = v)) ∧
    (s.busy = true → regWrite (0x80 + 4 * j.val) v s =
      .next { s with err := if s.err = .none then .busyViolation else s.err })

/-- R43, R39(c): in either lane order the lane bytes of DOUT0..DOUT4 are the 20 digest bytes of H, in order. -/
def Obligations.DoutGivesTheDigestBytesInLaneOrder : Prop :=
  ∀ s : State, s.busy = false →
    (List.finRange 5).flatMap (fun i => (laneBytes (regRead (0x40 + 4 * i.val) s).1 s.endian).toList) = digestBytes s.h

/-! ### The machine as a whole -/

/-- A step whose host statement is a CMD write is the issue of its word, and where the word decodes it is the
command's `exec`, on the state with the host past its statement and, where a completion could have come instead, one
turn used: the head of `turns` goes and one more host step is counted. With BUSY = 0 no turn is used. That a turn is
used and counted, and how, is the model's choice (assumptions 1 and 15). -/
def Obligations.StepRunsTheDecodedCommand : Prop :=
  ∀ (s : State) (w : Word), s.hostRuns (.write .cmd w) →
    step s = issue w (hostGoto (s.host.pc + 1) (takeTurn s)) ∧
    (∀ i, decode w = .ok i → step s = exec i (hostGoto (s.host.pc + 1) (takeTurn s))) ∧
    (s.busy = false → takeTurn s = s) ∧
    (s.busy = true → takeTurn s = { s with turns := s.turns.tail, waited := s.waited + 1 })

/-- The command word that `withFetchWord` places is what the very next step issues, in every state. Placing
a program is the model's (assumptions 3 and 11). -/
def Obligations.PlacedCommandRunsNext : Prop :=
  ∀ (s : State) (w : Nat) (i : Instr), decodeTableWord 32 w = some i → ∃ t : State,
    step (s.withFetchWord 32 w) = exec i t ∧ t.h = s.h ∧ t.buf = s.buf ∧ t.bufcnt = s.bufcnt ∧ t.len = s.len ∧
    t.done = s.done ∧ t.err = s.err ∧ t.busy = s.busy ∧ t.pending = s.pending ∧ t.endian = s.endian ∧
    t.dataIn = s.dataIn

/-- R57: what the host's WR, RD and BNZ statements do; each is one step on the line at the host's program counter. WR
and RD go on to the next statement; RD stores the value read in its variable and leaves every other variable; BNZ
goes to the first line that bears the label or to the next statement. A BNZ taken to a label the program lacks is
refused, and a label stands for the first line that bears it (the model's choices, assumption 4); draws are counted
(assumption 2). That a turn is used and counted, and how, is the model's choice (assumptions 1 and 15). -/
def Obligations.HostStatementsRun : Prop :=
  (∀ (prog : List Line) (label k : Nat), labelLine prog label = some k ↔
    (prog[k]?).map Line.label = some (some label) ∧ ∀ j, j < k → (prog[j]?).map Line.label ≠ some (some label)) ∧
  (∀ (prog : List Line) (label : Nat), labelLine prog label = none ↔ ∀ l ∈ prog, l.label ≠ some label) ∧
  ∀ s : State,
    hostLine s = s.host.program[s.host.pc]? ∧
    (∀ st, s.hostRuns st → (s.host.program[s.host.pc]?).map Line.stmt = some st) ∧
    (∀ (r : Reg) (v : Word), s.hostRuns (.write r v) → ∃ t : State, step s = .next t ∧
      step s = regWrite r.offset v (hostGoto (s.host.pc + 1) (takeTurn s)) ∧
      t.host = { s.host with pc := s.host.pc + 1 }) ∧
    (∀ (r : Reg) (var : Nat), s.hostRuns (.read r var) → ∃ (k : Nat) (t : State), k ≤ 2 ∧
      (readReg r s).2 = countDraws k s ∧ step s = .next t ∧
      t = hostRecord var (readReg r s).1 (countDraws k (hostGoto (s.host.pc + 1) (takeTurn s))) ∧
      t.host = { s.host with pc := s.host.pc + 1, reads := (var, (readReg r s).1) :: s.host.reads } ∧
      hostVar var t = (readReg r s).1 ∧ ∀ u, u ≠ var → hostVar u t = hostVar u s) ∧
    (∀ (var : Nat) (mask : Word) (label : Nat), s.hostRuns (.bnz var mask label) →
      (hostVar var s &&& mask = 0 → ∃ t : State, step s = .next t ∧ t = hostGoto (s.host.pc + 1) (takeTurn s) ∧
        t = { takeTurn s with host := { s.host with pc := s.host.pc + 1 } }) ∧
      (hostVar var s &&& mask ≠ 0 → ∀ k, labelLine s.host.program label = some k → ∃ t : State,
        step s = .next t ∧ t = hostGoto k (takeTurn s) ∧ t = { takeTurn s with host := { s.host with pc := k } }) ∧
      (hostVar var s &&& mask ≠ 0 → labelLine s.host.program label = none →
        step s = .refused (.noSuchLabel label)))

/-- R108: RESET, in any state and while BUSY = 1 too, sets every state of R18 to its reset value, raises no error and
cancels the pending command. -/
def Obligations.ResetRestoresEveryRegister : Prop :=
  ∀ s : State, s.hostRuns .reset → ∃ t : State, step s = .next t ∧
    t.h = { h0 := 0x67452301, h1 := 0xEFCDAB89, h2 := 0x98BADCFE, h3 := 0x10325476, h4 := 0xC3D2E1F0 } ∧
    t.len = 0 ∧ t.bufcnt = 0 ∧ (∀ k : Fin 64, t.buf[k.val] = 0x00) ∧ t.done = false ∧ t.err = .none ∧
    t.busy = false ∧ t.pending = none ∧ t.endian = .big ∧ t.dataIn = 0x00000000

/-- R109, R88: what the window reads after reset, and that INIT right after reset changes no state of R18. The
last clause also speaks of the model's own counters, whose values at reset are the model's choice (assumption 3): the
count of accepted commands goes from 0 to 1 and the others stay. -/
def Obligations.StateAfterReset : Prop :=
  (regRead 0x04 State.reset).1 = 0x00000000 ∧ (regRead 0x18 State.reset).1 = 0x53484131 ∧
  (regRead 0x10 State.reset).1 = 0 ∧ (regRead 0x14 State.reset).1 = 0 ∧
  (∀ i : Fin 5, (regRead (0x20 + 4 * i.val) State.reset).1 = HashState.iv.get i ∧
    (regRead (0x40 + 4 * i.val) State.reset).1 = HashState.iv.get i) ∧
  (∃ t : State, exec .init State.reset = .next t ∧ completeCommand t = { State.reset with issued := 1 })

/-- R92: the completion step. The engine moves only when BUSY = 1, and moves at once when the host has no statement
left (the model's way of fairness, assumption 6). Its step is `completeCommand`, in every state where it moves: it
performs PENDING, then clears BUSY and PENDING. It raises no error (R94). That a turn is used and counted, and how,
is the model's choice (assumptions 1 and 15). With BUSY = 1 and no command latched, which `State.Inv` rules out, that
the step only clears BUSY is the model's choice (assumption 7). -/
def Obligations.CompletionStepFinishesThePendingCommand : Prop :=
  ∀ s : State, (mover s = some .engine → s.busy = true) ∧
    (s.busy = true → hostLine s = none → mover s = some .engine) ∧
    (mover s = some .engine → step s = .next (completeCommand (takeTurn s))) ∧
    (∀ p, s.enginePerforms p → ∃ t : State, step s = .next t ∧ t = finish (performCommand p (takeTurn s)) ∧
      t = completeCommand (takeTurn s) ∧ t.busy = false ∧ t.pending = none ∧
      t.err = (if p = .init then .none else s.err) ∧ t.host = s.host ∧ t.endian = s.endian ∧ t.dataIn = s.dataIn)

/-- R46, R114: either order of a pending completion and a host statement is a run of the model, and no agent can move
exactly where the run has ended (R115). That a step taken there answers the same state is the model's, read from
R107, and no behaviour of the hardware (assumption 16). The list `turns`, which says who
moves, is the model's (assumption 1). -/
def Obligations.EitherAgentMayMoveFirst : Prop :=
  ∀ s : State,
    (s.busy = true → (hostLine s).isSome = true → ∀ a rest, mover { s with turns := a :: rest } = some a) ∧
    (mover s = none ↔ s.ended = true) ∧ (s.ended = true → step s = .next s)

/-- R92: "the state it produces depends only on the state at issue and the latched PENDING, not on when it runs". A host
step other than a reset, while BUSY = 1, changes nothing of what the completion leaves, but for a code it records in
ERR, and not even that where INIT is pending. -/
def Obligations.CompletionDoesNotDependOnWhenItRuns : Prop :=
  ∀ (s t : State) (st : HostStmt), s.busy = true → s.hostRuns st → st ≠ .reset → step s = .next t →
    (completeCommand t).h = (completeCommand s).h ∧ (completeCommand t).buf = (completeCommand s).buf ∧
    (completeCommand t).bufcnt = (completeCommand s).bufcnt ∧ (completeCommand t).len = (completeCommand s).len ∧
    (completeCommand t).done = (completeCommand s).done ∧ (completeCommand t).endian = (completeCommand s).endian ∧
    (completeCommand t).dataIn = (completeCommand s).dataIn ∧ (completeCommand t).busy = (completeCommand s).busy ∧
    (completeCommand t).pending = (completeCommand s).pending ∧
    (s.pending = some .init → (completeCommand t).err = (completeCommand s).err)

/-- R92, R39, R44: "The completion step reads nothing the host can change while BUSY = 1": neither lane order nor
DATA_IN nor the host has a part in what it computes, and it changes none of them. `turns` and `draws` are the model's
own fields (assumptions 1 and 2). -/
def Obligations.CompletionIgnoresTheHostSide : Prop :=
  ∀ (s : State) (e : LaneOrder) (d : Word) (a : HostAgent) (ts : List Agent) (k : Nat),
    completeCommand { s with endian := e, dataIn := d, host := a, turns := ts, draws := k } =
      { completeCommand s with endian := e, dataIn := d, host := a, turns := ts, draws := k }

/-- R24: the bytes BUF[BUFCNT..63] are left over and no digest depends on them. FINAL's completion is the same whatever
they are, and ABSORB's leaves the same H, BUFCNT and buffered bytes. -/
def Obligations.LeftoverBytesDoNotMatter : Prop :=
  ∀ (s : State) (B : Block), (∀ k : Fin 64, k.val < s.bufcnt.val → B[k.val] = s.buf[k.val]) →
    (s.pending = some .final → completeCommand { s with buf := B } = completeCommand s) ∧
    (∀ bs, s.pending = some (.absorb bs) →
      (completeCommand { s with buf := B }).h = (completeCommand s).h ∧
      (completeCommand { s with buf := B }).bufcnt = (completeCommand s).bufcnt ∧
      ∀ k : Fin 64, k.val < (completeCommand s).bufcnt.val →
        (completeCommand { s with buf := B }).buf[k.val] = (completeCommand s).buf[k.val])

/-- R114: a pending command completes, or is reset away, after finitely many steps: within the turns the state holds and
the command's LATENCY, where the run meets no stop. The bound is of the model's making (assumption 6); LATENCY is free. -/
def Obligations.PendingCommandsComplete : Prop :=
  ∀ s t : State, s.busy = true →
    steps (s.turns.length + Config.latency s.issued + 1) s = .next t →
    ∃ (k : Nat) (u : State), k ≤ s.turns.length + Config.latency s.issued + 1 ∧
      steps k s = .next u ∧ u.busy = false

/-- R95, R96, R104: the first error is kept. INIT's completion and a reset leave ERR = 0, whatever it was; every other
step leaves ERR as it is while ERR ≠ 0. -/
def Obligations.FirstErrorIsKeptUntilInitOrReset : Prop :=
  ∀ s t : State, step s = .next t →
    (s.enginePerforms .init ∨ s.hostRuns .reset → t.err = .none) ∧
    (s.err ≠ .none → ¬(s.enginePerforms .init ∨ s.hostRuns .reset) → t.err = s.err)

/-- R103, R100: errors are precise. A host step that records an error changes nothing of SHA1CORE but ERR: the state
is the one before it, with the host past its statement and one turn used. That a turn is used and counted, and how,
is the model's choice (assumptions 1 and 15). -/
def Obligations.ErrorsArePrecise : Prop :=
  ∀ (s t : State) (st : HostStmt), s.hostRuns st → st ≠ .reset → step s = .next t → t.err ≠ s.err →
    s.err = .none ∧ t = { hostGoto (s.host.pc + 1) (takeTurn s) with err := t.err }

/-- R18, the column "written by": a step changes a state of SHA1CORE only where the step is one of its writers. -/
def Obligations.EachRegisterHasItsWriters : Prop :=
  ∀ s t : State, step s = .next t →
    (t.h ≠ s.h → (∃ p, s.enginePerforms p) ∨ s.hostRuns .reset) ∧
    (t.buf ≠ s.buf → (∃ bs, s.enginePerforms (.absorb bs)) ∨ s.enginePerforms .final ∨
      (s.busy = false ∧ ∃ j v, s.hostRuns (.write (.m j) v)) ∨ s.hostRuns .reset) ∧
    (t.bufcnt ≠ s.bufcnt → s.enginePerforms .init ∨ (∃ bs, s.enginePerforms (.absorb bs)) ∨
      s.enginePerforms .final ∨ s.hostRuns .reset) ∧
    (t.len ≠ s.len → s.enginePerforms .init ∨ (∃ bs, s.enginePerforms (.absorb bs)) ∨ s.hostRuns .reset) ∧
    (t.done ≠ s.done → s.enginePerforms .init ∨ s.enginePerforms .final ∨ s.hostRuns .reset) ∧
    (t.err ≠ s.err → (∃ r v, s.hostRuns (.write r v)) ∨ s.enginePerforms .init ∨ s.hostRuns .reset) ∧
    ((t.busy ≠ s.busy ∨ t.pending ≠ s.pending) → (s.busy = false ∧ ∃ v, s.hostRuns (.write .cmd v)) ∨
      mover s = some .engine ∨ s.hostRuns .reset) ∧
    (t.endian ≠ s.endian → (s.busy = false ∧ ∃ v, s.hostRuns (.write .config v)) ∨ s.hostRuns .reset) ∧
    (t.dataIn ≠ s.dataIn → (s.busy = false ∧ ∃ v, s.hostRuns (.write .dataIn v)) ∨ s.hostRuns .reset)

/-- The invariant holds after reset. -/
def Obligations.ResetMeetsTheInvariant : Prop := State.reset.Inv

/-- R29, R26, R25: every step keeps the invariant: BUSY = 1 exactly while a command is latched, the latched command fits
the state, LEN is a whole number of bytes, and BUFCNT = (LEN / 8) mod 64 until FINAL. -/
def Obligations.EveryStepKeepsTheInvariant : Prop :=
  ∀ s t : State, s.Inv → step s = .next t → t.Inv

/-- R93, R109: a run of R93 can start at reset and at every INIT completion. -/
def Obligations.ResetAndInitStartAMessage : Prop :=
  State.reset.MessageStart ∧
  ∀ s t : State, s.enginePerforms .init → step s = .next t → t.MessageStart

/-- R93, streaming correctness: in a run from reset or an INIT completion that absorbs the message m, in any split and
any interleaving, with no error, reset, INIT, BLOCK or M write, FINAL's completion leaves H = digest_state(m),
LEN = 8 × len(m), DONE = 1 and ERR = 0, and m is within the length limit. -/
def Obligations.StreamingComputesTheDigest : Prop :=
  ∀ (m : List Byte) (s : State), Streaming m s → s.enginePerforms .final → ∃ t : State, step s = .next t ∧
    t.h = digestState m ∧ t.len.toNat = 8 * m.length ∧ m.length ≤ 2 ^ 61 - 1 ∧ t.done = true ∧ t.err = .none ∧
    t.bufcnt = 0 ∧ t.busy = false

/-- R69: during such a run BUF and H hold what the rule says: byte i of the message went to BUF[i mod 64], BUF[0..BUFCNT)
is the unfinished block, and H is the fold of the finished ones. -/
def Obligations.StreamingKeepsTheUnfinishedBlock : Prop :=
  ∀ (m : List Byte) (s : State), Streaming m s →
    s.done = false ∧ s.len.toNat = 8 * m.length ∧ s.bufcnt.val = m.length % 64 ∧
    s.buf.toList.take s.bufcnt.val = m.drop (m.length - m.length % 64) ∧
    s.h = (blocks (m.take (m.length - m.length % 64))).foldl (fun h B => compress (expand B) h) HashState.iv

/-- R115, R93, R43: what the host observes where a run of R93 ends with FINAL's completion: STATUS shows DONE and nothing
else, H0..H4 are the state of the digest, the lane bytes of DOUT0..DOUT4 are the 20 bytes of the digest in either lane
order, LEN is the bit length, and M0..M15 are the last block of the padded message in lane order. -/
def Obligations.TheDigestIsObserved : Prop :=
  ∀ (m : List Byte) (s t : State), Streaming m s → s.enginePerforms .final → step s = .next t →
    t.observe.status = 0x00000002 ∧
    t.observe.h = (List.finRange 5).map (fun i => (digestState m).get i) ∧
    t.observe.dout.flatMap (fun w => (laneBytes w t.endian).toList) = digest m ∧
    t.observe.lenHi.toNat * 2 ^ 32 + t.observe.lenLo.toNat = 8 * m.length ∧
    t.observe.m.flatMap (fun w => (laneBytes w t.endian).toList) = (pad m).drop ((pad m).length - 64) ∧
    t.observe.reads = s.host.reads.reverse

/-! ### The host assembler (30_encoding.md) -/

/-- R58: the expansions of the pseudo-instructions, in offsets and words, and the ABSORB that is no statement. -/
def Obligations.PseudoInstructionsExpand : Prop :=
  (∀ st, plain st = { label := none, stmt := st }) ∧
  (Pseudo.command .nop).expand = some [plain (.wr 4 0x00 0x00000000)] ∧
  (Pseudo.command .init).expand = some [plain (.wr 4 0x00 0x00000001)] ∧
  (Pseudo.command .final).expand = some [plain (.wr 4 0x00 0x00000003)] ∧
  (Pseudo.command .block).expand = some [plain (.wr 4 0x00 0x00000004)] ∧
  (∀ label var, (Pseudo.poll label var).expand =
    some [{ label := some label, stmt := .rd 4 0x04 var }, plain (.bnz var 0x00000001 label)]) ∧
  (∀ (n : Nat) (v : Word), 1 ≤ n → n ≤ 4 → ∃ w : Word, w.toNat = (n - 1) * 2 ^ 4 + 0x2 ∧
    (Pseudo.command (.absorb n)).expand = some [plain (.wr 4 0x00 w)] ∧
    (Pseudo.put n v).expand = some [plain (.wr 4 0x0C v), plain (.wr 4 0x00 w)]) ∧
  (∀ (n : Nat) (v : Word), (n = 0 ∨ 4 < n) →
    (Pseudo.command (.absorb n)).expand = none ∧ (Pseudo.put n v).expand = none)
end

