-- ==== Sys2Proof/Laws/Operands.lean ====
section
/-! SUPPORT. Words and bytes: the value of a byte join, its bytes, and the four-byte windows of a block. -/

namespace Sys2Proof.Machine

theorem vector4_eta (b : Vector Byte 4) : #v[b[0], b[1], b[2], b[3]] = b := by
  ext i hi
  interval_cases i <;> rfl

/-- The value of four joined bytes (R14). -/
theorem be32_toNat (b : Vector Byte 4) : (be32 b).toNat =
    b[0].toNat * 2 ^ 24 + b[1].toNat * 2 ^ 16 + b[2].toNat * 2 ^ 8 + b[3].toNat := by
  have e (n : Nat) (x : BitVec n) (y : Byte) : (x ++ y).toNat = x.toNat * 256 + y.toNat := by
    rw [BitVec.toNat_append, ← Nat.shiftLeft_add_eq_or_of_lt y.isLt, Nat.shiftLeft_eq]
  unfold be32
  rw [e, e, e]
  omega

/-- Byte k of four joined bytes. -/
theorem be32_byte (b : Vector Byte 4) (k : Nat) (hk : k < 4) : (be32 b).extractLsb' (24 - 8 * k) 8 = b[k] := by
  apply BitVec.eq_of_toNat_eq
  have h0 := b[0].isLt
  have h1 := b[1].isLt
  have h2 := b[2].isLt
  have h3 := b[3].isLt
  rw [BitVec.extractLsb'_toNat, be32_toNat, Nat.shiftRight_eq_div_pow]
  interval_cases k <;> simp <;> omega

/-- Words with the same four bytes are equal. -/
theorem word_ext_bytes (v w : Word)
    (h : ∀ k, k < 4 → v.extractLsb' (24 - 8 * k) 8 = w.extractLsb' (24 - 8 * k) 8) : v = w := by
  apply BitVec.eq_of_toNat_eq
  have hv := v.isLt
  have hw := w.isLt
  have e (k : Nat) (hk : k < 4) := congrArg BitVec.toNat (h k hk)
  simp only [BitVec.extractLsb'_toNat, Nat.shiftRight_eq_div_pow] at e
  have e0 := e 0 (by omega)
  have e1 := e 1 (by omega)
  have e2 := e 2 (by omega)
  have e3 := e 3 (by omega)
  simp at e0 e1 e2 e3
  omega

theorem absorbBytes_length (v : Word) (e : LaneOrder) (n : Nat) (h : n ≤ 4) : (absorbBytes v e n).length = n := by
  simp [absorbBytes, h]

theorem absorbBytes_getD (v : Word) (e : LaneOrder) (n k : Nat) (h : n ≤ 4) (hk : k < n) :
    (absorbBytes v e n).getD k 0 = (laneBytes v e)[k] := by
  have : k < 4 := by omega
  simp [absorbBytes, hk, this]

/-- A window write read back inside the window (R42). -/
theorem setQuad_inside (B : Block) (j : Fin 16) (q : Vector Byte 4) (k : Nat) (hk : k < 4) :
    (Block.setQuad B j q)[4 * j.val + k] = q[k] := by
  unfold Block.setQuad
  interval_cases k <;> simp

/-- A window write leaves every byte outside the window (R42). -/
theorem setQuad_outside (B : Block) (j : Fin 16) (q : Vector Byte 4) (i : Nat) (hi : i < 64)
    (h : i < 4 * j.val ∨ 4 * j.val + 4 ≤ i) : (Block.setQuad B j q)[i] = B[i] := by
  unfold Block.setQuad
  simp only [Vector.getElem_set]
  rw [if_neg (by omega), if_neg (by omega), if_neg (by omega), if_neg (by omega)]

/-- A window write read back through the same window (R42). -/
theorem quad_setQuad (B : Block) (j : Fin 16) (q : Vector Byte 4) : Block.quad (Block.setQuad B j q) j = q := by
  have h0 := setQuad_inside B j q 0 (by omega)
  have h1 := setQuad_inside B j q 1 (by omega)
  have h2 := setQuad_inside B j q 2 (by omega)
  have h3 := setQuad_inside B j q 3 (by omega)
  unfold Block.quad
  simp only [Nat.add_zero] at h0
  rw [h0, h1, h2, h3, vector4_eta]

theorem ofBytes_getElem (p : List Byte) (k : Nat) (hk : k < 64) : (Block.ofBytes p)[k] = p.getD k 0 := by
  simp [Block.ofBytes]

theorem ofBytes_toList (p : List Byte) (h : p.length = 64) : (Block.ofBytes p).toList = p := by
  apply List.ext_getElem (by simp [h])
  intro i h1 h2
  simp [Block.ofBytes, h2]

end Sys2Proof.Machine
end

