-- ==== Sys2Proof/Laws/Algorithm.lean ====
section
/-! SUPPORT. The pure functions of the algorithm: lengths, splits, and one equation each. -/

namespace Sys2Proof.Machine

@[simp] theorem be64_length (n : BitVec 64) : (be64 n).length = 8 := rfl

/-- The 8 bytes of `be64`, read as a big-endian number (R14). -/
theorem be64_value (n : BitVec 64) : (be64 n).foldl (fun a b => 256 * a + b.toNat) 0 = n.toNat := by
  have := n.isLt
  simp only [be64, List.foldl_cons, List.foldl_nil, BitVec.extractLsb'_toNat, Nat.shiftRight_eq_div_pow]
  omega

theorem zeroFill_mod (L : Nat) : zeroFill (L % 64) = zeroFill L := by simp [zeroFill]

/-- One block of padding where BUFCNT ≤ 55, two where BUFCNT ≥ 56 (R65). -/
theorem padTail_length (B : Block) (c : Fin 64) (len : BitVec 64) :
    (padTail B c len).length = if c.val ≤ 55 then 64 else 128 := by
  have := c.isLt
  simp [padTail, zeroFill]
  split <;> omega

@[simp] theorem blocks_length (p : List Byte) : (blocks p).length = p.length / 64 := by simp [blocks]

/-- Slicing goes over a split at a block boundary (R66). -/
theorem blocks_append (p q : List Byte) (h : p.length % 64 = 0) : blocks (p ++ q) = blocks p ++ blocks q := by
  have e : (p ++ q).length / 64 = p.length / 64 + q.length / 64 := by simp; omega
  unfold blocks
  rw [e, List.range_add, List.map_append, List.map_map]
  refine congrArg₂ (· ++ ·) ?_ ?_
  · apply List.map_congr_left
    intro i hi
    rw [List.mem_range] at hi
    have : 64 * i + 64 ≤ p.length := by omega
    have h1 : (p ++ q).drop (64 * i) = p.drop (64 * i) ++ q := List.drop_append_of_le_length (by omega)
    have h2 : (p.drop (64 * i) ++ q).take 64 = (p.drop (64 * i)).take 64 :=
      List.take_append_of_le_length (by rw [List.length_drop]; omega)
    rw [h1, h2]
  · apply List.map_congr_left
    intro i hi
    have h1 : 64 * (p.length / 64 + i) = p.length + 64 * i := by omega
    have h2 : (p ++ q).drop (p.length + 64 * i) = q.drop (64 * i) := by
      rw [← List.drop_drop, List.drop_left]
    rw [Function.comp_apply, h1, h2]

theorem blocks_one (p : List Byte) (h : p.length = 64) : blocks p = [Block.ofBytes p] := by
  have : p.take 64 = p := by simp [← h]
  simp [blocks, h, List.range_succ, this]

theorem extendSchedule_length (k : Nat) (W : List Word) : (extendSchedule k W).length = W.length + k := by
  induction k generalizing W with
  | zero => rfl
  | succ k ih => rw [extendSchedule, ih]; simp; omega

/-- The words already there stay (R73). -/
theorem extendSchedule_getD_old (k : Nat) (W : List Word) (t : Nat) (h : t < W.length) :
    (extendSchedule k W).getD t 0 = W.getD t 0 := by
  induction k generalizing W with
  | zero => rfl
  | succ k ih => rw [extendSchedule, ih _ (by simp; omega), List.getD_append _ _ _ _ h]

/-- A word of the recurrence reads only words before it (R72). -/
theorem scheduleWord_congr (V W : List Word) (t : Nat) (h16 : 16 ≤ t) (h : ∀ j, j < t → V.getD j 0 = W.getD j 0) :
    scheduleWord V t = scheduleWord W t := by
  unfold scheduleWord
  rw [h (t - 3) (by omega), h (t - 8) (by omega), h (t - 14) (by omega), h (t - 16) (by omega)]

/-- Each new word is the recurrence over the finished schedule (R72). -/
theorem extendSchedule_getD_new (k : Nat) (W : List Word) (t : Nat) (h16 : 16 ≤ W.length) (h : W.length ≤ t)
    (ht : t < W.length + k) : (extendSchedule k W).getD t 0 = scheduleWord (extendSchedule k W) t := by
  induction k generalizing W with
  | zero => omega
  | succ k ih =>
    by_cases e : t = W.length
    · subst e
      have old (j : Nat) (hj : j < W.length) : (extendSchedule (k + 1) W).getD j 0 = W.getD j 0 :=
        extendSchedule_getD_old _ _ _ hj
      rw [scheduleWord_congr _ W _ h16 old, extendSchedule, extendSchedule_getD_old _ _ _ (by simp)]
      simp
    · rw [extendSchedule]
      exact ih _ (by simp; omega) (by simp; omega) (by simp; omega)

theorem bigEndianWords_length (p : List Byte) : (bigEndianWords p).length = p.length / 4 := by
  induction p using bigEndianWords.induct with
  | case1 b0 b1 b2 b3 rest ih => simp [bigEndianWords, ih]; omega
  | case2 p h =>
    rw [bigEndianWords]
    · match p, h with
      | [], _ => rfl
      | [_], _ => simp
      | [_, _], _ => simp
      | [_, _, _], _ => simp
      | a :: b :: c :: d :: r, h => exact absurd rfl (h a b c d r)
    · exact h

/-- Word j is the four bytes from 4j on (R68). -/
theorem bigEndianWords_getD (p : List Byte) (j : Nat) (h : 4 * j + 4 ≤ p.length) :
    (bigEndianWords p).getD j 0 =
      be32 #v[p.getD (4 * j) 0, p.getD (4 * j + 1) 0, p.getD (4 * j + 2) 0, p.getD (4 * j + 3) 0] := by
  induction p using bigEndianWords.induct generalizing j with
  | case1 b0 b1 b2 b3 rest ih =>
    cases j with
    | zero => simp [bigEndianWords]
    | succ j =>
      simp at h
      rw [bigEndianWords, List.getD_cons_succ, ih j (by omega)]
      simp [show 4 * (j + 1) = 4 * j + 4 by omega]
  | case2 p h' =>
    match p, h', h with
    | a :: b :: c :: d :: r, h', _ => exact absurd rfl (h' a b c d r)

theorem blockWords_length (B : Block) : (blockWords B).length = 16 := by
  simp [blockWords, bigEndianWords_length]

theorem blockWords_getD (B : Block) (j : Fin 16) : (blockWords B).getD j.val 0 = be32 (Block.quad B j) := by
  unfold blockWords
  rw [bigEndianWords_getD _ _ (by simp; omega)]
  have e (i : Nat) (hi : i < 64) : B.toList.getD i 0 = B[i] := by simp [hi]
  rw [e _ (by omega), e _ (by omega), e _ (by omega), e _ (by omega)]
  rfl

/-- The rounds of a schedule in two parts (R77). -/
theorem rounds_append (V W : List Word) (t : Nat) (v : Working) :
    rounds (V ++ W) t v = rounds W (t + V.length) (rounds V t v) := by
  induction V generalizing t v with
  | nil => rfl
  | cons w V ih =>
    simp only [List.cons_append, rounds, ih, List.length_cons]
    congr 1
    omega

end Sys2Proof.Machine
end

