-- ==== Sys2Proof/Laws/State.lean ====
section
/-! SUPPORT. One lemma per field of State and named update: what the update leaves in that field. -/

namespace Sys2Proof.Machine

variable (s : State)

@[simp] theorem raiseError_h (c : ErrorCode) : (raiseError c s).h = s.h := rfl
@[simp] theorem raiseError_buf (c : ErrorCode) : (raiseError c s).buf = s.buf := rfl
@[simp] theorem raiseError_bufcnt (c : ErrorCode) : (raiseError c s).bufcnt = s.bufcnt := rfl
@[simp] theorem raiseError_len (c : ErrorCode) : (raiseError c s).len = s.len := rfl
@[simp] theorem raiseError_done (c : ErrorCode) : (raiseError c s).done = s.done := rfl
@[simp] theorem raiseError_err (c : ErrorCode) : (raiseError c s).err = if s.err = .none then c else s.err := rfl
@[simp] theorem raiseError_busy (c : ErrorCode) : (raiseError c s).busy = s.busy := rfl
@[simp] theorem raiseError_pending (c : ErrorCode) : (raiseError c s).pending = s.pending := rfl
@[simp] theorem raiseError_endian (c : ErrorCode) : (raiseError c s).endian = s.endian := rfl
@[simp] theorem raiseError_dataIn (c : ErrorCode) : (raiseError c s).dataIn = s.dataIn := rfl
@[simp] theorem raiseError_host (c : ErrorCode) : (raiseError c s).host = s.host := rfl
@[simp] theorem raiseError_turns (c : ErrorCode) : (raiseError c s).turns = s.turns := rfl
@[simp] theorem raiseError_issued (c : ErrorCode) : (raiseError c s).issued = s.issued := rfl
@[simp] theorem raiseError_waited (c : ErrorCode) : (raiseError c s).waited = s.waited := rfl
@[simp] theorem raiseError_draws (c : ErrorCode) : (raiseError c s).draws = s.draws := rfl

@[simp] theorem accept_h (p : Pending) : (accept p s).h = s.h := rfl
@[simp] theorem accept_buf (p : Pending) : (accept p s).buf = s.buf := rfl
@[simp] theorem accept_bufcnt (p : Pending) : (accept p s).bufcnt = s.bufcnt := rfl
@[simp] theorem accept_len (p : Pending) : (accept p s).len = s.len := rfl
@[simp] theorem accept_done (p : Pending) : (accept p s).done = s.done := rfl
@[simp] theorem accept_err (p : Pending) : (accept p s).err = s.err := rfl
@[simp] theorem accept_busy (p : Pending) : (accept p s).busy = true := rfl
@[simp] theorem accept_pending (p : Pending) : (accept p s).pending = some p := rfl
@[simp] theorem accept_endian (p : Pending) : (accept p s).endian = s.endian := rfl
@[simp] theorem accept_dataIn (p : Pending) : (accept p s).dataIn = s.dataIn := rfl
@[simp] theorem accept_host (p : Pending) : (accept p s).host = s.host := rfl
@[simp] theorem accept_turns (p : Pending) : (accept p s).turns = s.turns := rfl
@[simp] theorem accept_issued (p : Pending) : (accept p s).issued = s.issued + 1 := rfl
@[simp] theorem accept_waited (p : Pending) : (accept p s).waited = 0 := rfl
@[simp] theorem accept_draws (p : Pending) : (accept p s).draws = s.draws := rfl

@[simp] theorem finish_h : (finish s).h = s.h := rfl
@[simp] theorem finish_buf : (finish s).buf = s.buf := rfl
@[simp] theorem finish_bufcnt : (finish s).bufcnt = s.bufcnt := rfl
@[simp] theorem finish_len : (finish s).len = s.len := rfl
@[simp] theorem finish_done : (finish s).done = s.done := rfl
@[simp] theorem finish_err : (finish s).err = s.err := rfl
@[simp] theorem finish_busy : (finish s).busy = false := rfl
@[simp] theorem finish_pending : (finish s).pending = none := rfl
@[simp] theorem finish_endian : (finish s).endian = s.endian := rfl
@[simp] theorem finish_dataIn : (finish s).dataIn = s.dataIn := rfl
@[simp] theorem finish_host : (finish s).host = s.host := rfl
@[simp] theorem finish_turns : (finish s).turns = s.turns := rfl
@[simp] theorem finish_issued : (finish s).issued = s.issued := rfl
@[simp] theorem finish_waited : (finish s).waited = s.waited := rfl
@[simp] theorem finish_draws : (finish s).draws = s.draws := rfl

@[simp] theorem resetCore_h : (resetCore s).h = HashState.iv := rfl
@[simp] theorem resetCore_buf : (resetCore s).buf = Vector.replicate 64 0x00 := rfl
@[simp] theorem resetCore_bufcnt : (resetCore s).bufcnt = 0 := rfl
@[simp] theorem resetCore_len : (resetCore s).len = 0 := rfl
@[simp] theorem resetCore_done : (resetCore s).done = false := rfl
@[simp] theorem resetCore_err : (resetCore s).err = .none := rfl
@[simp] theorem resetCore_busy : (resetCore s).busy = false := rfl
@[simp] theorem resetCore_pending : (resetCore s).pending = none := rfl
@[simp] theorem resetCore_endian : (resetCore s).endian = .big := rfl
@[simp] theorem resetCore_dataIn : (resetCore s).dataIn = 0 := rfl
@[simp] theorem resetCore_host : (resetCore s).host = s.host := rfl
@[simp] theorem resetCore_turns : (resetCore s).turns = s.turns := rfl
@[simp] theorem resetCore_issued : (resetCore s).issued = s.issued := rfl
@[simp] theorem resetCore_waited : (resetCore s).waited = 0 := rfl
@[simp] theorem resetCore_draws : (resetCore s).draws = s.draws := rfl

@[simp] theorem countDraws_h (k : Nat) : (countDraws k s).h = s.h := rfl
@[simp] theorem countDraws_buf (k : Nat) : (countDraws k s).buf = s.buf := rfl
@[simp] theorem countDraws_bufcnt (k : Nat) : (countDraws k s).bufcnt = s.bufcnt := rfl
@[simp] theorem countDraws_len (k : Nat) : (countDraws k s).len = s.len := rfl
@[simp] theorem countDraws_done (k : Nat) : (countDraws k s).done = s.done := rfl
@[simp] theorem countDraws_err (k : Nat) : (countDraws k s).err = s.err := rfl
@[simp] theorem countDraws_busy (k : Nat) : (countDraws k s).busy = s.busy := rfl
@[simp] theorem countDraws_pending (k : Nat) : (countDraws k s).pending = s.pending := rfl
@[simp] theorem countDraws_endian (k : Nat) : (countDraws k s).endian = s.endian := rfl
@[simp] theorem countDraws_dataIn (k : Nat) : (countDraws k s).dataIn = s.dataIn := rfl
@[simp] theorem countDraws_host (k : Nat) : (countDraws k s).host = s.host := rfl
@[simp] theorem countDraws_turns (k : Nat) : (countDraws k s).turns = s.turns := rfl
@[simp] theorem countDraws_issued (k : Nat) : (countDraws k s).issued = s.issued := rfl
@[simp] theorem countDraws_waited (k : Nat) : (countDraws k s).waited = s.waited := rfl
@[simp] theorem countDraws_draws (k : Nat) : (countDraws k s).draws = s.draws + k := rfl

@[simp] theorem hostGoto_h (k : Nat) : (hostGoto k s).h = s.h := rfl
@[simp] theorem hostGoto_buf (k : Nat) : (hostGoto k s).buf = s.buf := rfl
@[simp] theorem hostGoto_bufcnt (k : Nat) : (hostGoto k s).bufcnt = s.bufcnt := rfl
@[simp] theorem hostGoto_len (k : Nat) : (hostGoto k s).len = s.len := rfl
@[simp] theorem hostGoto_done (k : Nat) : (hostGoto k s).done = s.done := rfl
@[simp] theorem hostGoto_err (k : Nat) : (hostGoto k s).err = s.err := rfl
@[simp] theorem hostGoto_busy (k : Nat) : (hostGoto k s).busy = s.busy := rfl
@[simp] theorem hostGoto_pending (k : Nat) : (hostGoto k s).pending = s.pending := rfl
@[simp] theorem hostGoto_endian (k : Nat) : (hostGoto k s).endian = s.endian := rfl
@[simp] theorem hostGoto_dataIn (k : Nat) : (hostGoto k s).dataIn = s.dataIn := rfl
@[simp] theorem hostGoto_host (k : Nat) : (hostGoto k s).host = { s.host with pc := k } := rfl
@[simp] theorem hostGoto_turns (k : Nat) : (hostGoto k s).turns = s.turns := rfl
@[simp] theorem hostGoto_issued (k : Nat) : (hostGoto k s).issued = s.issued := rfl
@[simp] theorem hostGoto_waited (k : Nat) : (hostGoto k s).waited = s.waited := rfl
@[simp] theorem hostGoto_draws (k : Nat) : (hostGoto k s).draws = s.draws := rfl

@[simp] theorem hostRecord_h (x : Nat) (v : Word) : (hostRecord x v s).h = s.h := rfl
@[simp] theorem hostRecord_buf (x : Nat) (v : Word) : (hostRecord x v s).buf = s.buf := rfl
@[simp] theorem hostRecord_bufcnt (x : Nat) (v : Word) : (hostRecord x v s).bufcnt = s.bufcnt := rfl
@[simp] theorem hostRecord_len (x : Nat) (v : Word) : (hostRecord x v s).len = s.len := rfl
@[simp] theorem hostRecord_done (x : Nat) (v : Word) : (hostRecord x v s).done = s.done := rfl
@[simp] theorem hostRecord_err (x : Nat) (v : Word) : (hostRecord x v s).err = s.err := rfl
@[simp] theorem hostRecord_busy (x : Nat) (v : Word) : (hostRecord x v s).busy = s.busy := rfl
@[simp] theorem hostRecord_pending (x : Nat) (v : Word) : (hostRecord x v s).pending = s.pending := rfl
@[simp] theorem hostRecord_endian (x : Nat) (v : Word) : (hostRecord x v s).endian = s.endian := rfl
@[simp] theorem hostRecord_dataIn (x : Nat) (v : Word) : (hostRecord x v s).dataIn = s.dataIn := rfl
@[simp] theorem hostRecord_host (x : Nat) (v : Word) : (hostRecord x v s).host = { s.host with reads := (x, v) :: s.host.reads } := rfl
@[simp] theorem hostRecord_turns (x : Nat) (v : Word) : (hostRecord x v s).turns = s.turns := rfl
@[simp] theorem hostRecord_issued (x : Nat) (v : Word) : (hostRecord x v s).issued = s.issued := rfl
@[simp] theorem hostRecord_waited (x : Nat) (v : Word) : (hostRecord x v s).waited = s.waited := rfl
@[simp] theorem hostRecord_draws (x : Nat) (v : Word) : (hostRecord x v s).draws = s.draws := rfl

@[simp] theorem takeTurn_h : (takeTurn s).h = s.h := rfl
@[simp] theorem takeTurn_buf : (takeTurn s).buf = s.buf := rfl
@[simp] theorem takeTurn_bufcnt : (takeTurn s).bufcnt = s.bufcnt := rfl
@[simp] theorem takeTurn_len : (takeTurn s).len = s.len := rfl
@[simp] theorem takeTurn_done : (takeTurn s).done = s.done := rfl
@[simp] theorem takeTurn_err : (takeTurn s).err = s.err := rfl
@[simp] theorem takeTurn_busy : (takeTurn s).busy = s.busy := rfl
@[simp] theorem takeTurn_pending : (takeTurn s).pending = s.pending := rfl
@[simp] theorem takeTurn_endian : (takeTurn s).endian = s.endian := rfl
@[simp] theorem takeTurn_dataIn : (takeTurn s).dataIn = s.dataIn := rfl
@[simp] theorem takeTurn_host : (takeTurn s).host = s.host := rfl
@[simp] theorem takeTurn_turns : (takeTurn s).turns = if contended s then s.turns.tail else s.turns := rfl
@[simp] theorem takeTurn_issued : (takeTurn s).issued = s.issued := rfl
@[simp] theorem takeTurn_waited : (takeTurn s).waited = if contended s then s.waited + 1 else s.waited := rfl
@[simp] theorem takeTurn_draws : (takeTurn s).draws = s.draws := rfl

@[simp] theorem addLength_h (n : Nat) : (addLength n s).h = s.h := rfl
@[simp] theorem addLength_buf (n : Nat) : (addLength n s).buf = s.buf := rfl
@[simp] theorem addLength_bufcnt (n : Nat) : (addLength n s).bufcnt = s.bufcnt := rfl
@[simp] theorem addLength_len (n : Nat) : (addLength n s).len = s.len + BitVec.ofNat 64 (8 * n) := rfl
@[simp] theorem addLength_done (n : Nat) : (addLength n s).done = s.done := rfl
@[simp] theorem addLength_err (n : Nat) : (addLength n s).err = s.err := rfl
@[simp] theorem addLength_busy (n : Nat) : (addLength n s).busy = s.busy := rfl
@[simp] theorem addLength_pending (n : Nat) : (addLength n s).pending = s.pending := rfl
@[simp] theorem addLength_endian (n : Nat) : (addLength n s).endian = s.endian := rfl
@[simp] theorem addLength_dataIn (n : Nat) : (addLength n s).dataIn = s.dataIn := rfl
@[simp] theorem addLength_host (n : Nat) : (addLength n s).host = s.host := rfl
@[simp] theorem addLength_turns (n : Nat) : (addLength n s).turns = s.turns := rfl
@[simp] theorem addLength_issued (n : Nat) : (addLength n s).issued = s.issued := rfl
@[simp] theorem addLength_waited (n : Nat) : (addLength n s).waited = s.waited := rfl
@[simp] theorem addLength_draws (n : Nat) : (addLength n s).draws = s.draws := rfl

@[simp] theorem completeInit_h : (completeInit s).h = HashState.iv := rfl
@[simp] theorem completeInit_buf : (completeInit s).buf = s.buf := rfl
@[simp] theorem completeInit_bufcnt : (completeInit s).bufcnt = 0 := rfl
@[simp] theorem completeInit_len : (completeInit s).len = 0 := rfl
@[simp] theorem completeInit_done : (completeInit s).done = false := rfl
@[simp] theorem completeInit_err : (completeInit s).err = .none := rfl
@[simp] theorem completeInit_busy : (completeInit s).busy = s.busy := rfl
@[simp] theorem completeInit_pending : (completeInit s).pending = s.pending := rfl
@[simp] theorem completeInit_endian : (completeInit s).endian = s.endian := rfl
@[simp] theorem completeInit_dataIn : (completeInit s).dataIn = s.dataIn := rfl
@[simp] theorem completeInit_host : (completeInit s).host = s.host := rfl
@[simp] theorem completeInit_turns : (completeInit s).turns = s.turns := rfl
@[simp] theorem completeInit_issued : (completeInit s).issued = s.issued := rfl
@[simp] theorem completeInit_waited : (completeInit s).waited = s.waited := rfl
@[simp] theorem completeInit_draws : (completeInit s).draws = s.draws := rfl

@[simp] theorem completeBlock_h : (completeBlock s).h = foldBlock s.h s.buf := rfl
@[simp] theorem completeBlock_buf : (completeBlock s).buf = s.buf := rfl
@[simp] theorem completeBlock_bufcnt : (completeBlock s).bufcnt = s.bufcnt := rfl
@[simp] theorem completeBlock_len : (completeBlock s).len = s.len := rfl
@[simp] theorem completeBlock_done : (completeBlock s).done = s.done := rfl
@[simp] theorem completeBlock_err : (completeBlock s).err = s.err := rfl
@[simp] theorem completeBlock_busy : (completeBlock s).busy = s.busy := rfl
@[simp] theorem completeBlock_pending : (completeBlock s).pending = s.pending := rfl
@[simp] theorem completeBlock_endian : (completeBlock s).endian = s.endian := rfl
@[simp] theorem completeBlock_dataIn : (completeBlock s).dataIn = s.dataIn := rfl
@[simp] theorem completeBlock_host : (completeBlock s).host = s.host := rfl
@[simp] theorem completeBlock_turns : (completeBlock s).turns = s.turns := rfl
@[simp] theorem completeBlock_issued : (completeBlock s).issued = s.issued := rfl
@[simp] theorem completeBlock_waited : (completeBlock s).waited = s.waited := rfl
@[simp] theorem completeBlock_draws : (completeBlock s).draws = s.draws := rfl

@[simp] theorem loadBlock_h (B : Block) : (loadBlock s B).h = foldBlock s.h B := rfl
@[simp] theorem loadBlock_buf (B : Block) : (loadBlock s B).buf = B := rfl
@[simp] theorem loadBlock_bufcnt (B : Block) : (loadBlock s B).bufcnt = s.bufcnt := rfl
@[simp] theorem loadBlock_len (B : Block) : (loadBlock s B).len = s.len := rfl
@[simp] theorem loadBlock_done (B : Block) : (loadBlock s B).done = s.done := rfl
@[simp] theorem loadBlock_err (B : Block) : (loadBlock s B).err = s.err := rfl
@[simp] theorem loadBlock_busy (B : Block) : (loadBlock s B).busy = s.busy := rfl
@[simp] theorem loadBlock_pending (B : Block) : (loadBlock s B).pending = s.pending := rfl
@[simp] theorem loadBlock_endian (B : Block) : (loadBlock s B).endian = s.endian := rfl
@[simp] theorem loadBlock_dataIn (B : Block) : (loadBlock s B).dataIn = s.dataIn := rfl
@[simp] theorem loadBlock_host (B : Block) : (loadBlock s B).host = s.host := rfl
@[simp] theorem loadBlock_turns (B : Block) : (loadBlock s B).turns = s.turns := rfl
@[simp] theorem loadBlock_issued (B : Block) : (loadBlock s B).issued = s.issued := rfl
@[simp] theorem loadBlock_waited (B : Block) : (loadBlock s B).waited = s.waited := rfl
@[simp] theorem loadBlock_draws (B : Block) : (loadBlock s B).draws = s.draws := rfl

end Sys2Proof.Machine
end

