-- ==== Sys2Proof/Laws/Commands.lean ====
section
/-! SUPPORT. What the issue of a command and its completion can do, each said once. -/

namespace Sys2Proof.Machine

/-- All that the issue of ABSORB, FINAL or BLOCK can do (R86). -/
theorem issueMessage_cases (own : Option ErrorCode) (p : Pending) (s : State) :
    (∃ c, issueMessage own p s = raiseError c s) ∨
    (s.err ≠ .none ∧ issueMessage own p s = s) ∨
    (s.busy = false ∧ s.err = .none ∧ s.done = false ∧ own = none ∧ issueMessage own p s = accept p s) := by
  unfold issueMessage
  split
  · exact .inl ⟨_, rfl⟩
  · split
    · exact .inr (.inl ⟨‹_›, rfl⟩)
    · split
      · exact .inl ⟨_, rfl⟩
      · cases own with
        | some c => exact .inl ⟨c, rfl⟩
        | none => simp_all

/-- Where the checks pass, the command is accepted. -/
theorem issueMessage_accepts (p : Pending) (s : State) (hb : s.busy = false) (he : s.err = .none)
    (hd : s.done = false) : issueMessage none p s = accept p s := by
  simp [issueMessage, hb, he, hd]

theorem raiseError_of_err (c : ErrorCode) (s : State) (h : s.err ≠ .none) : raiseError c s = s := by
  simp [raiseError, h]

/-- What an accepted command latches and what its issue has checked (R86). -/
def Accepts (i : Instr) (p : Pending) (s : State) : Prop :=
  match i with
  | .nop => False
  | .init => p = .init
  | .absorb n => p = .absorb (absorbBytes s.dataIn s.endian n) ∧ s.err = .none ∧ s.done = false ∧
      messageBytes s.len + n ≤ maxMsgBytes
  | .final => p = .final ∧ s.err = .none ∧ s.done = false
  | .block => p = .block ∧ s.err = .none ∧ s.done = false ∧ s.bufcnt = 0

/-- All that a command's issue can do: an error recorded, nothing, or the command accepted. -/
theorem exec_cases (i : Instr) (s : State) : ∃ t, exec i s = .next t ∧
    ((∃ c, t = raiseError c s) ∨ t = s ∨ (s.busy = false ∧ ∃ p, Accepts i p s ∧ t = accept p s)) := by
  have message (own : Option ErrorCode) (p : Pending)
      (ok : s.err = .none → s.done = false → own = none → Accepts i p s) :
      (∃ c, issueMessage own p s = raiseError c s) ∨ issueMessage own p s = s ∨
        (s.busy = false ∧ ∃ q, Accepts i q s ∧ issueMessage own p s = accept q s) := by
    rcases issueMessage_cases own p s with h | ⟨-, h⟩ | ⟨hb, he, hd, ho, h⟩
    · exact .inl h
    · exact .inr (.inl h)
    · exact .inr (.inr ⟨hb, p, ok he hd ho, h⟩)
  cases i with
  | nop =>
    refine ⟨_, rfl, ?_⟩
    split
    · exact .inl ⟨_, rfl⟩
    · exact .inr (.inl rfl)
  | init =>
    refine ⟨_, rfl, ?_⟩
    split
    · exact .inl ⟨_, rfl⟩
    · exact .inr (.inr ⟨by simp_all, .init, rfl, rfl⟩)
  | absorb n => exact ⟨_, rfl, message _ _ (fun he hd ho => ⟨rfl, he, hd, by simpa [absorbError] using ho⟩)⟩
  | final => exact ⟨_, rfl, message _ _ (fun he hd _ => ⟨rfl, he, hd⟩)⟩
  | block => exact ⟨_, rfl, message _ _ (fun he hd ho => ⟨rfl, he, hd, by simpa [blockError] using ho⟩)⟩

/-- All that a CMD write can do (R86). -/
theorem issue_cases (v : Word) (s : State) : ∃ t, issue v s = .next t ∧
    ((∃ c, t = raiseError c s) ∨ t = s ∨
      (s.busy = false ∧ ∃ i p, decode v = .ok i ∧ Accepts i p s ∧ t = accept p s)) := by
  unfold issue
  cases h : decode v with
  | error e => exact ⟨_, rfl, .inl ⟨_, rfl⟩⟩
  | ok i =>
    obtain ⟨t, ht, h | h | ⟨hb, p, hp⟩⟩ := exec_cases i s
    · exact ⟨t, ht, .inl h⟩
    · exact ⟨t, ht, .inr (.inl h)⟩
    · exact ⟨t, ht, .inr (.inr ⟨hb, i, p, rfl, hp⟩)⟩

/-! ### ABSORB's completion (R89) -/

/-- A byte changes BUF, BUFCNT and, where the block fills, H. -/
theorem absorbByte_eq (s : State) (b : Byte) :
    absorbByte s b = { s with h := (absorbByte s b).h, buf := s.buf.set s.bufcnt.val b, bufcnt := s.bufcnt + 1 } := by
  unfold absorbByte
  split
  · rename_i h
    have e : s.bufcnt + 1 = 0 := by rw [h]; rfl
    rw [e]
  · rfl

theorem absorbByte_buf (s : State) (b : Byte) : (absorbByte s b).buf = s.buf.set s.bufcnt.val b := by
  rw [absorbByte_eq]

theorem absorbByte_bufcnt (s : State) (b : Byte) : (absorbByte s b).bufcnt = s.bufcnt + 1 := by
  rw [absorbByte_eq]

theorem absorbByte_h (s : State) (b : Byte) : (absorbByte s b).h =
    if s.bufcnt.val = 63 then foldBlock s.h (s.buf.set s.bufcnt.val b) else s.h := by
  have : s.bufcnt = 63 ↔ s.bufcnt.val = 63 := by omega
  unfold absorbByte
  split <;> simp_all

/-- Bytes change H, BUF and BUFCNT only. -/
theorem foldl_absorbByte_eq (bs : List Byte) (s : State) :
    bs.foldl absorbByte s = { s with
      h := (bs.foldl absorbByte s).h
      buf := (bs.foldl absorbByte s).buf
      bufcnt := (bs.foldl absorbByte s).bufcnt } := by
  induction bs generalizing s with
  | nil => rfl
  | cons b bs ih => rw [List.foldl_cons, ih, absorbByte_eq]

theorem foldl_absorbByte_bufcnt (bs : List Byte) (s : State) :
    (bs.foldl absorbByte s).bufcnt.val = (s.bufcnt.val + bs.length) % 64 := by
  induction bs generalizing s with
  | nil => simp; omega
  | cons b bs ih =>
    rw [List.foldl_cons, ih, absorbByte_bufcnt]
    have := s.bufcnt.isLt
    simp [Fin.val_add]
    omega

/-- Bytes that do not fill the block: H stays and the bytes go in at BUFCNT. -/
theorem foldl_absorbByte_short (bs : List Byte) (s : State) (h : s.bufcnt.val + bs.length < 64) :
    (bs.foldl absorbByte s).h = s.h ∧
    (∀ k (hk : k < 64), s.bufcnt.val ≤ k → k < s.bufcnt.val + bs.length →
      (bs.foldl absorbByte s).buf[k] = bs.getD (k - s.bufcnt.val) 0) ∧
    (∀ k (hk : k < 64), (k < s.bufcnt.val ∨ s.bufcnt.val + bs.length ≤ k) →
      (bs.foldl absorbByte s).buf[k] = s.buf[k]) := by
  induction bs generalizing s with
  | nil => exact ⟨rfl, fun k _ h1 h2 => by simp at h2; omega, fun _ _ _ => rfl⟩
  | cons b bs ih =>
    rw [List.length_cons] at h
    have hc : (absorbByte s b).bufcnt.val = s.bufcnt.val + 1 := by
      rw [absorbByte_bufcnt]
      simp [Fin.val_add]
      omega
    obtain ⟨ihh, ihin, ihout⟩ := ih (absorbByte s b) (by omega)
    rw [List.foldl_cons, List.length_cons]
    refine ⟨by rw [ihh, absorbByte_h, if_neg (by omega)], fun k hk h1 h2 => ?_, fun k hk h1 => ?_⟩
    · by_cases hk1 : k = s.bufcnt.val
      · rw [ihout k hk (by omega)]
        subst hk1
        simp [absorbByte_buf]
      · rw [ihin k hk (by omega) (by omega), hc,
          show k - s.bufcnt.val = (k - (s.bufcnt.val + 1)) + 1 by omega, List.getD_cons_succ]
    · rw [ihout k hk (by omega)]
      have : s.bufcnt.val ≠ k := by omega
      simp [absorbByte_buf, this]

/-- Bytes that end exactly at the end of the block: the block is compressed once. -/
theorem foldl_absorbByte_fill (bs : List Byte) (s : State) (h : s.bufcnt.val + bs.length = 64) :
    (bs.foldl absorbByte s).h = foldBlock s.h (bs.foldl absorbByte s).buf ∧
    (∀ k (hk : k < 64), s.bufcnt.val ≤ k → (bs.foldl absorbByte s).buf[k] = bs.getD (k - s.bufcnt.val) 0) ∧
    (∀ k (hk : k < 64), k < s.bufcnt.val → (bs.foldl absorbByte s).buf[k] = s.buf[k]) := by
  have hc := s.bufcnt.isLt
  obtain ⟨cs, b, rfl⟩ : ∃ cs b, bs = cs ++ [b] := by
    rcases List.eq_nil_or_concat bs with rfl | ⟨cs, b, rfl⟩
    · simp at h
      omega
    · exact ⟨cs, b, by simp⟩
  simp only [List.length_append, List.length_cons, List.length_nil] at h
  obtain ⟨hh, hin, hout⟩ := foldl_absorbByte_short cs s (by omega)
  have hn := foldl_absorbByte_bufcnt cs s
  rw [List.foldl_append, List.foldl_cons, List.foldl_nil, absorbByte_h, absorbByte_buf, if_pos (by omega), hh]
  refine ⟨rfl, fun k hk h1 => ?_, fun k hk h1 => ?_⟩
  · rw [Vector.getElem_set]
    split
    · rw [show k - s.bufcnt.val = cs.length by omega]
      simp
    · rw [hin k hk (by omega) (by omega), List.getD_append _ _ _ _ (by omega)]
  · rw [Vector.getElem_set, if_neg (by omega), hout k hk (by omega)]

/-- ABSORB's completion leaves everything but H, BUF, BUFCNT and LEN. -/
theorem completeAbsorb_eq (bs : List Byte) (s : State) : completeAbsorb bs s = { s with
    h := (bs.foldl absorbByte s).h
    buf := (bs.foldl absorbByte s).buf
    bufcnt := (bs.foldl absorbByte s).bufcnt
    len := s.len + BitVec.ofNat 64 (8 * bs.length) } := by
  rw [completeAbsorb, foldl_absorbByte_eq]
  rfl

/-! ### FINAL's completion (R90) -/

/-- The blocks are folded into H in order, and BUF holds the last. -/
theorem foldl_loadBlock_eq (bs : List Block) (s : State) :
    bs.foldl loadBlock s = { s with h := bs.foldl foldBlock s.h, buf := bs.getLastD s.buf } := by
  induction bs generalizing s with
  | nil => rfl
  | cons b bs ih =>
    rw [List.foldl_cons, ih]
    simp [loadBlock]
    cases bs <;> rfl

/-- FINAL's completion in one equation. -/
theorem completeFinal_eq (s : State) : completeFinal s = { s with
    h := (blocks (padTail s.buf s.bufcnt s.len)).foldl foldBlock s.h
    buf := (blocks (padTail s.buf s.bufcnt s.len)).getLastD s.buf
    bufcnt := 0
    done := true } := by
  rw [completeFinal, foldl_loadBlock_eq]

/-! ### The completion step (R92) -/

/-- What every completion leaves: BUSY and PENDING cleared, and all but H, BUF, BUFCNT, LEN, DONE and ERR as it was. -/
theorem completeCommand_eq (s : State) : completeCommand s = { s with
    h := (completeCommand s).h
    buf := (completeCommand s).buf
    bufcnt := (completeCommand s).bufcnt
    len := (completeCommand s).len
    done := (completeCommand s).done
    err := if s.pending = some .init then .none else s.err
    busy := false
    pending := none } := by
  unfold completeCommand
  cases s.pending with
  | none => rfl
  | some p =>
    cases p with
    | init => rfl
    | absorb bs =>
      simp only [performCommand]
      rw [completeAbsorb_eq]
      rfl
    | final =>
      simp only [performCommand]
      rw [completeFinal_eq]
      rfl
    | block => rfl

@[simp] theorem completeCommand_busy (s : State) : (completeCommand s).busy = false := by rw [completeCommand_eq]

@[simp] theorem completeCommand_pending (s : State) : (completeCommand s).pending = none := by rw [completeCommand_eq]

@[simp] theorem completeCommand_err (s : State) :
    (completeCommand s).err = if s.pending = some .init then .none else s.err := by rw [completeCommand_eq]

@[simp] theorem completeCommand_endian (s : State) : (completeCommand s).endian = s.endian := by rw [completeCommand_eq]

@[simp] theorem completeCommand_dataIn (s : State) : (completeCommand s).dataIn = s.dataIn := by rw [completeCommand_eq]

@[simp] theorem completeCommand_host (s : State) : (completeCommand s).host = s.host := by rw [completeCommand_eq]

theorem completeCommand_of_pending (s : State) (p : Pending) (h : s.pending = some p) :
    completeCommand s = finish (performCommand p s) := by
  simp [completeCommand, h]

theorem completeCommand_of_none (s : State) (h : s.pending = none) : completeCommand s = finish s := by
  simp [completeCommand, h]

end Sys2Proof.Machine
end

