-- ==== Sys2Proof/Laws/Registers.lean ====
section
/-! SUPPORT. The register window: the map read backwards, what a read leaves, what a write can do. -/

namespace Sys2Proof.Machine

theorem reg_mem_all (r : Reg) : r ∈ Reg.all := by cases r <;> simp [Reg.all]

@[simp] theorem ofOffset_offset (r : Reg) : Reg.ofOffset r.offset = some r := by
  have : ∀ r ∈ Reg.all, Reg.ofOffset r.offset = some r := by decide
  exact this r (reg_mem_all r)

theorem offset_of_ofOffset (off : Nat) (r : Reg) (h : Reg.ofOffset off = some r) : r.offset = off := by
  simpa using List.find?_some h

@[simp] theorem regRead_offset (r : Reg) (s : State) : regRead r.offset s = readReg r s := by simp [regRead]

@[simp] theorem regWrite_offset (r : Reg) (v : Word) (s : State) : regWrite r.offset v s = writeReg r v s := by
  simp [regWrite]

/-- A read leaves everything but the draw counter (R38). -/
theorem readReg_state (r : Reg) (s : State) : ∃ k, (readReg r s).2 = countDraws k s := by
  have hazard (v : Word) : ∃ k, (exactWhenIdle v s).2 = countDraws k s := by
    unfold exactWhenIdle
    split
    · exact ⟨1, rfl⟩
    · exact ⟨0, rfl⟩
  cases r with
  | status =>
    show ∃ k, (readStatus s).2 = _
    unfold readStatus
    split
    · exact ⟨2, rfl⟩
    · exact ⟨0, rfl⟩
  | cmd => exact ⟨0, rfl⟩
  | config => exact ⟨0, rfl⟩
  | dataIn => exact ⟨0, rfl⟩
  | id => exact ⟨0, rfl⟩
  | lenLo => exact hazard _
  | lenHi => exact hazard _
  | h i => exact hazard _
  | dout i => exact hazard _
  | m j => exact hazard _

theorem regRead_state (off : Nat) (s : State) : ∃ k, (regRead off s).2 = countDraws k s := by
  unfold regRead
  split
  · exact readReg_state _ _
  · exact ⟨0, rfl⟩

theorem writeWhenIdle_cases (s t : State) :
    writeWhenIdle s t = raiseError .busyViolation s ∨ (s.busy = false ∧ writeWhenIdle s t = t) := by
  unfold writeWhenIdle
  cases s.busy <;> simp

/-- What a write does where it does anything but record an error: a command accepted, or one register set (R85). -/
def Writes (r : Reg) (v : Word) (s t : State) : Prop :=
  (r = .cmd ∧ ∃ i p, decode v = .ok i ∧ Accepts i p s ∧ t = accept p s) ∨
  (r = .config ∧ t = { s with endian := LaneOrder.ofBit (v.getLsbD 0) }) ∨
  (r = .dataIn ∧ t = { s with dataIn := v }) ∨
  (∃ j, r = .m j ∧ t = { s with buf := Block.setQuad s.buf j (laneBytes v s.endian) })

/-- All that a register write can do (R85). -/
theorem writeReg_cases (r : Reg) (v : Word) (s : State) : ∃ t, writeReg r v s = .next t ∧
    ((∃ c, t = raiseError c s) ∨ t = s ∨ (s.busy = false ∧ Writes r v s t)) := by
  have dropped (t : State) (h : Writes r v s t) : (∃ c, writeWhenIdle s t = raiseError c s) ∨ writeWhenIdle s t = s ∨
      (s.busy = false ∧ Writes r v s (writeWhenIdle s t)) := by
    rcases writeWhenIdle_cases s t with e | ⟨hb, e⟩
    · exact .inl ⟨_, e⟩
    · exact .inr (.inr ⟨hb, by rw [e]; exact h⟩)
  cases r with
  | cmd =>
    obtain ⟨t, ht, h | h | ⟨hb, h⟩⟩ := issue_cases v s
    · exact ⟨t, ht, .inl h⟩
    · exact ⟨t, ht, .inr (.inl h)⟩
    · exact ⟨t, ht, .inr (.inr ⟨hb, .inl ⟨rfl, h⟩⟩)⟩
  | config => exact ⟨_, rfl, dropped _ (.inr (.inl ⟨rfl, rfl⟩))⟩
  | dataIn => exact ⟨_, rfl, dropped _ (.inr (.inr (.inl ⟨rfl, rfl⟩)))⟩
  | m j => exact ⟨_, rfl, dropped _ (.inr (.inr (.inr ⟨j, rfl, rfl⟩)))⟩
  | status => exact ⟨s, rfl, .inr (.inl rfl)⟩
  | lenLo => exact ⟨s, rfl, .inr (.inl rfl)⟩
  | lenHi => exact ⟨s, rfl, .inr (.inl rfl)⟩
  | id => exact ⟨s, rfl, .inr (.inl rfl)⟩
  | h i => exact ⟨s, rfl, .inr (.inl rfl)⟩
  | dout i => exact ⟨s, rfl, .inr (.inl rfl)⟩

/-- An access that answers a next state is one of the window's (R37). -/
theorem checkAccess_next (bytes off : Nat) (k : Host.Outcome State Fault Refusal) (t : State)
    (h : checkAccess bytes off k = .next t) : bytes = 4 ∧ off % 4 = 0 ∧ off < 256 ∧ k = .next t := by
  unfold checkAccess at h
  split at h
  · cases h
  · split at h
    · cases h
    · split at h
      · cases h
      · simp_all [accessBytes, windowBytes]

end Sys2Proof.Machine
end

