-- ==== Sys2Proof/Laws/Step.lean ====
section
/-! SUPPORT. What a host statement and a step can do, each said once. -/

namespace Sys2Proof.Machine

/-- All that a host statement can do when it answers a next state (R57). -/
theorem execStmt_cases (st : HostStmt) (s t : State) (h : execStmt st s = .next t) :
    (∃ r v, st = .write r v ∧ writeReg r v s = .next t) ∨
    (t = s ∧ ∃ off v, st = .wr 4 off v ∧ Reg.ofOffset off = none) ∨
    (∃ off var v k, st = .rd 4 off var ∧ t = hostRecord var v (countDraws k s)) ∨
    (∃ var mask label, st = .bnz var mask label ∧ (t = s ∨ ∃ k, t = hostGoto k s)) ∨
    (st = .reset ∧ t = resetCore s) := by
  cases st with
  | wr bytes off v =>
    obtain ⟨rfl, -, -, hw⟩ := checkAccess_next _ _ _ _ h
    unfold regWrite at hw
    cases hr : Reg.ofOffset off with
    | some r =>
      rw [hr] at hw
      refine .inl ⟨r, v, ?_, hw⟩
      rw [HostStmt.write, offset_of_ofOffset _ _ hr]
    | none =>
      rw [hr] at hw
      cases hw
      exact .inr (.inl ⟨rfl, off, v, rfl, hr⟩)
  | rd bytes off var =>
    obtain ⟨rfl, -, -, hw⟩ := checkAccess_next _ _ _ _ h
    obtain ⟨k, hk⟩ := regRead_state off s
    rw [hk] at hw
    cases hw
    exact .inr (.inr (.inl ⟨off, var, _, k, rfl, rfl⟩))
  | bnz var mask label =>
    refine .inr (.inr (.inr (.inl ⟨var, mask, label, rfl, ?_⟩)))
    simp only [execStmt] at h
    split at h
    · cases h
      exact .inl rfl
    · split at h
      · cases h
        exact .inr ⟨_, rfl⟩
      · cases h
  | reset =>
    cases h
    exact .inr (.inr (.inr (.inr ⟨rfl, rfl⟩)))

/-- A step that is the host's is its statement, with the host past it and a turn used where one was contended. -/
theorem step_of_hostRuns (s : State) (st : HostStmt) (h : s.hostRuns st) :
    step s = execStmt st (hostGoto (s.host.pc + 1) (takeTurn s)) := by
  obtain ⟨hm, hl⟩ := h
  obtain ⟨l, hl1, hl2⟩ := Option.map_eq_some_iff.1 hl
  have e : hostLine (takeTurn s) = some l := hl1
  unfold step
  rw [hm]
  show hostStep (takeTurn s) = _
  unfold hostStep
  rw [e, ← hl2]
  rfl

/-- A step that is the engine's is the completion. -/
theorem step_of_engine (s : State) (h : mover s = some .engine) : step s = .next (completeCommand (takeTurn s)) := by
  simp only [step, h]

/-- The host moves only where it has a statement. -/
theorem hostLine_of_mover (s : State) (h : mover s = some .host) : ∃ l, hostLine s = some l := by
  cases hl : hostLine s with
  | some l => exact ⟨l, rfl⟩
  | none => simp [mover, contended, hl] at h

/-- All that a step can do when it answers a next state: a completion, a host statement, or nothing. -/
theorem step_cases (s t : State) (h : step s = .next t) :
    (mover s = some .engine ∧ t = completeCommand (takeTurn s)) ∨
    (∃ st, s.hostRuns st ∧ execStmt st (hostGoto (s.host.pc + 1) (takeTurn s)) = .next t) ∨
    (mover s = none ∧ t = s) := by
  cases hm : mover s with
  | none =>
    rw [step, hm] at h
    cases h
    exact .inr (.inr ⟨rfl, rfl⟩)
  | some a =>
    cases a with
    | engine =>
      rw [step_of_engine s hm] at h
      cases h
      exact .inl ⟨rfl, rfl⟩
    | host =>
      obtain ⟨l, hl⟩ := hostLine_of_mover s hm
      have hr : s.hostRuns l.stmt := ⟨hm, by rw [hl]; rfl⟩
      rw [step_of_hostRuns s _ hr] at h
      exact .inr (.inl ⟨l.stmt, hr, h⟩)

/-- A run that begins with a step to `t` goes on from `t`. -/
theorem steps_succ (s t : State) (k : Nat) (h : step s = .next t) : steps (k + 1) s = steps k t := by
  rw [steps, h]

/-- The variable just recorded holds the value recorded (R57). -/
@[simp] theorem hostVar_hostRecord_same (var : Nat) (v : Word) (s : State) :
    hostVar var (hostRecord var v s) = v := by simp [hostVar, hostRecord]

/-- Every other variable keeps its value (R57). -/
theorem hostVar_hostRecord_ne (u var : Nat) (v : Word) (s : State) (h : u ≠ var) :
    hostVar u (hostRecord var v s) = hostVar u s := by
  have : (u == var) = false := by simp [h]
  simp [hostVar, hostRecord, List.lookup_cons, this]

/-- While BUSY = 1 and the host has a statement, a turn is used. -/
theorem takeTurn_contended (s : State) (h : contended s = true) :
    takeTurn s = { s with turns := s.turns.tail, waited := s.waited + 1 } := by
  simp [takeTurn, h]

/-- With BUSY = 0 no turn is used. -/
theorem takeTurn_idle (s : State) (h : s.busy = false) : takeTurn s = s := by
  have : contended s = false := by simp [contended, h]
  simp [takeTurn, this]

end Sys2Proof.Machine
end

