-- ==== Sys2Proof/Laws/Message.lean ====
section
/-! SUPPORT. The message intake: what is buffered and folded as bytes arrive (41_block_parser.md R69), and small facts
about LEN and the invariant. -/

namespace Sys2Proof.Machine

theorem ofBytes_block (B : Block) : Block.ofBytes B.toList = B := by
  apply Vector.ext
  intro i hi
  rw [ofBytes_getElem _ _ hi]
  simp [hi]

/-- A byte written at `c` stands right behind the first `c` bytes. -/
theorem set_take_succ (B : Block) (c : Nat) (hc : c < 64) (b : Byte) :
    (B.set c b).toList.take (c + 1) = B.toList.take c ++ [b] := by
  rw [Vector.toList_set, List.take_succ_eq_append_getElem (by simp; omega)]
  simp [List.take_set_of_le]

/-- BUF, BUFCNT and H after the message `m` has been taken in (R69). -/
structure Intake (m : List Byte) (s : State) : Prop where
  count : s.bufcnt.val = m.length % 64
  buffered : s.buf.toList.take (m.length % 64) = m.drop (m.length - m.length % 64)
  folded : s.h = (blocks (m.take (m.length - m.length % 64))).foldl foldBlock HashState.iv

theorem intake_byte (m : List Byte) (s : State) (b : Byte) (a : Intake m s) : Intake (m ++ [b]) (absorbByte s b) := by
  have hc := a.count
  have hlt := s.bufcnt.isLt
  have hb := a.buffered
  have hh := a.folded
  have hl : (m ++ [b]).length = m.length + 1 := by simp
  have ht := set_take_succ s.buf s.bufcnt.val hlt b
  by_cases h : s.bufcnt.val = 63
  · have e : (m ++ [b]).length % 64 = 0 := by omega
    have full : (s.buf.set s.bufcnt.val b).toList = m.drop (m.length - m.length % 64) ++ [b] := by
      rw [← hb, ← hc, ← ht, List.take_of_length_le (by simp; omega)]
    refine ⟨by rw [absorbByte_bufcnt, e, Fin.val_add, h]; rfl, by rw [e]; simp, ?_⟩
    rw [absorbByte_h, if_pos h, e, hh]
    have split : (m ++ [b]).take ((m ++ [b]).length - 0) =
        m.take (m.length - m.length % 64) ++ (m.drop (m.length - m.length % 64) ++ [b]) := by
      rw [← List.append_assoc, List.take_append_drop]
      simp
    have whole : (m.take (m.length - m.length % 64)).length % 64 = 0 := by
      simp
      omega
    rw [split, blocks_append _ _ whole, ← full, blocks_one (s.buf.set s.bufcnt.val b).toList (by simp), ofBytes_block,
      List.foldl_append]
    rfl
  · have e : (m ++ [b]).length % 64 = m.length % 64 + 1 := by omega
    have e2 : (m ++ [b]).length - (m.length % 64 + 1) = m.length - m.length % 64 := by omega
    refine ⟨by rw [absorbByte_bufcnt, e, Fin.val_add]; simp; omega, ?_, ?_⟩
    · rw [e, e2, absorbByte_buf, ← hc, ht, hc, hb, List.drop_append_of_le_length (by omega)]
    · rw [absorbByte_h, if_neg h, e, e2, hh, List.take_append_of_le_length (by omega)]

theorem intake_bytes (bs m : List Byte) (s : State) (a : Intake m s) : Intake (m ++ bs) (bs.foldl absorbByte s) := by
  induction bs generalizing m s with
  | nil => simpa using a
  | cons b bs ih => simpa using ih (m ++ [b]) _ (intake_byte m s b a)

/-- LEN does not wrap within the length limit (R26, R97). -/
theorem length_add (l : BitVec 64) (n : Nat) (h8 : l.toNat % 8 = 0) (h : messageBytes l + n ≤ maxMsgBytes) :
    (l + BitVec.ofNat 64 (8 * n)).toNat = l.toNat + 8 * n := by
  simp only [messageBytes, maxMsgBytes] at h
  rw [BitVec.toNat_add, BitVec.toNat_ofNat]
  omega

/-- What the decoder gives is well formed (R51). -/
theorem decode_wellFormed (v : Word) (i : Instr) (h : decode v = .ok i) : i.wellFormed = true := by
  unfold decode plainCommand at h
  split at h
  · cases h
  · split at h
    all_goals try (split at h <;> cases h <;> rfl)
    · cases h
      simp only [Instr.wellFormed, byteCount]
      have := (nbm1Field v).isLt
      simp
      omega
    · cases h

/-- The invariant speaks of BUSY, PENDING, LEN, DONE and BUFCNT only. -/
theorem inv_of_eq (s t : State) (h : s.Inv) (e1 : t.busy = s.busy) (e2 : t.pending = s.pending) (e3 : t.len = s.len)
    (e4 : t.done = s.done) (e5 : t.bufcnt = s.bufcnt) : t.Inv := by
  have hf := h.pending_fits
  unfold State.pendingFits at hf
  refine ⟨by rw [e1, e2, h.busy_iff_pending], ?_, by rw [e3, h.len_whole_bytes],
    by rw [e4, e5, e3]; exact h.bufcnt_of_len, by rw [e4, e5]; exact h.bufcnt_when_done⟩
  unfold State.pendingFits
  rw [e2, e3, e4, e5]
  exact hf

end Sys2Proof.Machine
end

