-- ==== Sys2Proof/Laws/PerInstr.lean ====
section
/-! SUPPORT. Statements made of every command, one lemma per constructor. -/

namespace Sys2Proof.Laws

/-- The encoder leaves the reserved field RSV zero, and NBM1 too but for ABSORB (R50). -/
def ReservedZero.Statement (i : Instr) : Prop :=
  rsvField (encode i) = 0 ∧ ((∀ n, i ≠ .absorb n) → nbm1Field (encode i) = 0)

theorem ReservedZero.nop : ReservedZero.Statement .nop := ⟨by decide, fun _ => by decide⟩

theorem ReservedZero.init : ReservedZero.Statement .init := ⟨by decide, fun _ => by decide⟩

theorem ReservedZero.absorb (n : Nat) : ReservedZero.Statement (.absorb n) :=
  ⟨by
    show rsvField (commandWord (BitVec.ofNat 2 (n - 1)) 0x2) = 0
    generalize BitVec.ofNat 2 (n - 1) = b
    revert b
    decide, fun h => absurd rfl (h n)⟩

theorem ReservedZero.final : ReservedZero.Statement .final := ⟨by decide, fun _ => by decide⟩

theorem ReservedZero.block : ReservedZero.Statement .block := ⟨by decide, fun _ => by decide⟩

end Sys2Proof.Laws
end

