-- ==== Sys2Proof/Tests/Slice0.lean ====
section
/-! SUPPORT. Small tests whose expected values are the spec's own (30_encoding.md R52 to R58 and 95_test_vectors.md, by
their ids), and for every statement of Certificates/Slice0/Obligations.lean with hypotheses a state that meets them. -/

namespace Sys2Proof.Tests

open Sys2Proof Sys2Proof.Machine

/-- The next state of an outcome, none at a stop. -/
def nextOf (o : Host.Outcome State Fault Refusal) : Option State :=
  match o with
  | .next t => some t
  | .fault _ => none
  | .refused _ => none

/-- A command issued and, where it was accepted, completed. -/
def ran (i : Instr) (s : State) : Option State :=
  (nextOf (exec i s)).map (fun t => if t.busy then completeCommand t else t)

/-- `s` with a host that stands at the first of these statements. -/
def hosting (p : List HostStmt) (s : State) : State :=
  { s with host := { program := p.map plain, pc := 0, reads := [] } }

/-- `s` with a command pending and the next turn the host's. -/
def pendingOn (p : Pending) (s : State) : State := { s with busy := true, pending := some p, turns := [.host] }

/-- What a step on a host write leaves. -/
def wrote (r : Reg) (v : Word) (s : State) : Option State := nextOf (step (hosting [.write r v] s))

/-- The values read at these offsets. -/
def readAll (offs : List Nat) (s : State) : List Word := offs.map (fun off => (regRead off s).1)

/-- BUF with these bytes first and zeros behind them. -/
def bufOf (p : List Byte) : Block := Vector.ofFn (fun i => p.getD i.val 0)

def abc : List Byte := [0x61, 0x62, 0x63]

def abcState : HashState :=
  { h0 := 0xA9993E36, h1 := 0x4706816A, h2 := 0xBA3E2571, h3 := 0x7850C26C, h4 := 0x9CD0D89D }

def abcBlock : Block := bufOf (abc ++ [0x80] ++ List.replicate 59 0x00 ++ [0x18])

/-! ### WellFormed: every check refuses an ill-formed term -/

theorem test_absorb_count_checked : (Instr.absorb 0).wellFormed = false ∧ (Instr.absorb 5).wellFormed = false ∧
    (Instr.absorb 1).wellFormed = true ∧ (Instr.absorb 4).wellFormed = true := by decide

theorem test_plain_commands_well_formed : Instr.nop.wellFormed = true ∧ Instr.init.wellFormed = true ∧
    Instr.final.wellFormed = true ∧ Instr.block.wellFormed = true := by decide

theorem test_access_width_checked : accessWellFormed 2 0x04 = false ∧ accessWellFormed 1 0x04 = false ∧
    accessWellFormed 8 0x40 = false := by decide

theorem test_access_alignment_checked : accessWellFormed 4 0x02 = false ∧ accessWellFormed 4 0x41 = false := by decide

theorem test_access_window_checked : accessWellFormed 4 0x100 = false ∧ accessWellFormed 4 0xFC = true := by decide

theorem test_statement_access_checked :
    (HostStmt.wr 2 0x00 1).wellFormed [] = false ∧ (HostStmt.rd 4 0x100 0).wellFormed [] = false := by decide

theorem test_label_checked : (HostStmt.bnz 0 1 7).wellFormed [⟨some 3, .reset⟩] = false ∧
    (HostStmt.bnz 0 1 3).wellFormed [⟨some 3, .reset⟩] = true := by decide

theorem test_program_labels_checked : programWellFormed [⟨some 3, .reset⟩, ⟨some 3, .reset⟩] = false ∧
    programWellFormed [⟨some 3, .reset⟩, ⟨none, .bnz 0 1 4⟩] = false ∧
    programWellFormed (pollLines 3 0) = true := by decide

/-! ### Decode: words written out from the encoding of R52 -/

theorem test_decode_nop : decode 0b00000000000000000000000000000000 = .ok .nop := by rfl

theorem test_decode_init : decode 0b00000000000000000000000000000001 = .ok .init := by rfl

theorem test_decode_absorb : decode 0b00000000000000000000000000000010 = .ok (.absorb 1) ∧
    decode 0b00000000000000000000000000010010 = .ok (.absorb 2) ∧
    decode 0b00000000000000000000000000100010 = .ok (.absorb 3) ∧
    decode 0b00000000000000000000000000110010 = .ok (.absorb 4) := ⟨rfl, rfl, rfl, rfl⟩

theorem test_decode_final : decode 0b00000000000000000000000000000011 = .ok .final := by rfl

theorem test_decode_block : decode 0b00000000000000000000000000000100 = .ok .block := by rfl

theorem test_illegal_words : legal 0x00000005 = false ∧ legal 0x0000000F = false ∧ legal 0x00000011 = false ∧
    legal 0x00000042 = false ∧ legal 0x80000002 = false ∧ legal 0x00000032 = true := by decide

theorem test_table_words : decodeTableWord 32 0x32 = some (.absorb 4) ∧ decodeTableWord 32 0x4 = some .block ∧
    decodeTableWord 8 0x12 = some (.absorb 2) ∧ decodeTableWord 32 0x5 = none := by decide

/-- The step after reset runs the placed word: the ABSORB 4 of V-K6 is accepted. -/
theorem test_placed_word_runs :
    (nextOf (step (State.reset.withFetchWord 32 0x32))).map (fun t => (t.busy, t.pending)) =
      some (true, some (.absorb [0, 0, 0, 0])) := by decide

/-! ### Primitives (95_test_vectors.md 2.1) -/

/-- V-P4, V-P5 -/
theorem test_rotations : [0, 1, 5, 30, 31, 32].map (rotl32 0x12345678) =
      [0x12345678, 0x2468ACF0, 0x468ACF02, 0x048D159E, 0x091A2B3C, 0x12345678] ∧
    rotl32 0x00000001 30 = 0x40000000 ∧ rotl32 0x80000001 1 = 0x00000003 ∧ rotl32 0x80000000 1 = 0x00000001 := by
  decide

/-- V-P1, V-P2, V-P3 -/
theorem test_additions : add32 0xFFFFFFFF 0x00000001 = 0 ∧ add32 0x80000000 0x80000000 = 0 ∧
    add32 0x67452301 0x42541B35 = 0xA9993E36 := by decide

/-- V-P6, V-P7, V-P8 -/
theorem test_byte_orders : bswap32 0x12345678 = 0x78563412 ∧ be32 #v[0x61, 0x62, 0x63, 0x80] = 0x61626380 ∧
    be64 24 = [0, 0, 0, 0, 0, 0, 0, 0x18] := by decide

/-- V-P9, V-P10 -/
theorem test_lanes : laneBytes 0x61626364 .big = #v[0x61, 0x62, 0x63, 0x64] ∧
    laneBytes 0x61626364 .little = #v[0x64, 0x63, 0x62, 0x61] ∧
    laneWord #v[0x61, 0x62, 0x63, 0x80] .little = 0x80636261 := by decide

/-! ### The algorithm (95_test_vectors.md 2.2 to 2.6) -/

/-- The k column of 2.2. -/
theorem test_zero_fill : [0, 1, 3, 55, 56, 57, 63, 64, 65, 119, 120, 121, 183, 184].map zeroFill =
    [55, 54, 52, 0, 63, 62, 56, 55, 54, 0, 63, 62, 0, 63] := by decide

/-- V-PD2, V-PD5 -/
theorem test_pad_abc : pad abc = abcBlock.toList ∧ padTail abcBlock 3 24 = abcBlock.toList := by decide +kernel

/-- V-PD4: the second block of 56 bytes is `zeros(56) ++ be64(448)`. -/
theorem test_pad_56 : (pad (List.replicate 56 0x61)).drop 56 =
    [0x80] ++ List.replicate 69 0x00 ++ [0x01, 0xC0] := by decide +kernel

/-- V-B3, V-B4 -/
theorem test_parse : (parse (List.replicate 65 0x00)).toOption = none ∧ (parse []).toOption = some [] := by decide

/-- The abc table of 2.4 at t = 0, 15, 16, 18, 19, 31 and 79. -/
theorem test_schedule_abc : [0, 15, 16, 18, 19, 31, 79].map (fun t => (expand abcBlock).getD t 0) =
    [0x61626380, 0x00000018, 0xC2C4C700, 0x00000030, 0x85898E01, 0x5898E048, 0x822E0879] := by decide +kernel

/-- V-C1, V-C3, V-C4 -/
theorem test_round_functions :
    [0, 20, 40, 60].map (fun t => roundFn t 0xF0F0F0F0 0xFF00FF00 0x0F0F0F0F) =
      [0xFF0FFF0F, 0x00FF00FF, 0xFF00FF00, 0x00FF00FF] ∧
    roundFn 40 0 0x12345678 0x9ABCDEF0 = 0x12345670 ∧
    [19, 20, 59, 60, 79].map roundConstant =
      [0x5A827999, 0x6ED9EBA1, 0x8F1BBCDC, 0xCA62C1D6, 0xCA62C1D6] := by decide

/-- The round trace of 2.5, t = 0 and t = 1. -/
theorem test_first_rounds : rounds [0x61626380, 0] 0 (Working.ofState HashState.iv) =
    { v0 := 0x8990536D, v1 := 0x0116FC33, v2 := 0x59D148C0, v3 := 0x7BF36AE2, v4 := 0x98BADCFE } := by decide

/-- V-D3: the two-block message. -/
theorem test_digest_two_blocks : digest ((List.range 14).flatMap
      (fun i => [BitVec.ofNat 8 (0x61 + i), BitVec.ofNat 8 (0x62 + i), BitVec.ofNat 8 (0x63 + i),
        BitVec.ofNat 8 (0x64 + i)])) =
    [0x84, 0x98, 0x3E, 0x44, 0x1C, 0x3B, 0xD2, 0x6E, 0xBA, 0xAE, 0x4A, 0xA1, 0xF9, 0x51, 0x29, 0xE5, 0xE5, 0x46, 0x70,
      0xF1] := by decide +kernel

/-! ### Commands (95_test_vectors.md 2.7) -/

/-- V-K2: NOP from reset. -/
theorem test_nop_changes_nothing : ran .nop State.reset = some State.reset := by decide

/-- R87, R86: NOP while busy is a BUSY_VIOLATION. -/
theorem test_nop_while_busy : (ran .nop (pendingOn .init State.reset)).map State.err = some .none ∧
    (nextOf (exec .nop (pendingOn .init State.reset))).map State.err = some .busyViolation := by decide

/-- V-K12 -/
theorem test_init_recovers :
    (ran .init { State.reset with err := .invalidBlockLength, h := abcState, len := 24, bufcnt := 3 }).map
      (fun t => (t.err, t.h, t.len, t.bufcnt)) = some (.none, HashState.iv, 0, 0) := by decide

/-- V-K16 -/
theorem test_init_while_init_is_pending :
    (wrote .cmd 0x00000001 (pendingOn .init State.reset)).map (fun t => (t.err, (completeCommand t).err)) =
      some (.busyViolation, .none) := by decide

/-- V-K6, V-K7: both lane orders. -/
theorem test_absorb_lanes :
    (ran (.absorb 4) { State.reset with dataIn := 0x61626364 }).map
        (fun t => (t.buf.toList.take 5, t.bufcnt, t.len, readAll [0x04] t)) =
      some ([0x61, 0x62, 0x63, 0x64, 0x00], 4, 32, [0x00000400]) ∧
    (ran (.absorb 2) { State.reset with dataIn := 0x61626364, endian := .little }).map
        (fun t => (t.buf.toList.take 3, t.bufcnt, t.len)) = some ([0x64, 0x63, 0x00], 2, 16) := by decide +kernel

/-- V-K8: a block fills after two of four bytes. -/
theorem test_absorb_fills_a_block :
    (ran (.absorb 4) { State.reset with
        dataIn := 0x61616161, buf := bufOf (List.replicate 62 0x61), bufcnt := 62, len := 496 }).map
      (fun t => (t.h.h0, t.bufcnt, t.len, readAll [0x04] t)) = some (0xDA4968EB, 2, 528, [0x00000200]) := by
  decide +kernel

/-- P1: FINAL on the empty message (V-D1). -/
theorem test_final_of_the_empty_message : (ran .final State.reset).map (fun t => (t.h, t.len, readAll [0x04] t)) =
    some ({ h0 := 0xDA39A3EE, h1 := 0x5E6B4B0D, h2 := 0x3255BFEF, h3 := 0x95601890, h4 := 0xAFD80709 }, 0,
      [0x00000002]) := by decide +kernel

/-- V-K10, V-K11: FINAL after FINAL, and FINAL in the terminal error state. -/
theorem test_final_refused :
    (ran .final { State.reset with done := true }).map State.err = some .sequence ∧
    ran .final { State.reset with err := .invalidBlockLength } =
      some { State.reset with err := .invalidBlockLength } := by decide

/-- V-K17: BLOCK on the block of pad("abc"). -/
theorem test_block_abc : (ran .block { State.reset with buf := abcBlock }).map (fun t => (t.h, t.len, t.done)) =
    some (abcState, 0, false) := by decide +kernel

/-- V-B5, P6: BLOCK on a partial message. -/
theorem test_block_refused : (ran .block { State.reset with bufcnt := 1, len := 8 }).map (readAll [0x04]) =
    some [0x00000120] := by decide

/-! ### Host accesses (95_test_vectors.md 2.7) -/

/-- V-K1 -/
theorem test_reads_after_reset : readAll [0x04, 0x18, 0x20, 0x40, 0x00, 0x1C] State.reset =
    [0x00000000, 0x53484131, 0x67452301, 0x67452301, 0x00000000, 0x00000000] := by decide

/-- V-K3, V-K4, V-K5 -/
theorem test_illegal_writes : [0x00000005, 0x00000011, 0x00000042].map
      (fun v => (wrote .cmd v State.reset).map (readAll [0x04])) =
    [some [0x00000050], some [0x00000050], some [0x00000050]] := by decide

/-- R94, R32: the STATUS of each error, its code at bits 6:4. -/
theorem test_error_codes :
    [ErrorCode.none, .inputTooLarge, .invalidBlockLength, .sequence, .busyViolation, .illegalCommand].map
      (fun e => readAll [0x04] { State.reset with err := e }) =
    [[0x00000000], [0x00000010], [0x00000020], [0x00000030], [0x00000040], [0x00000050]] := by decide

/-- V-K13: the write is dropped and the ABSORB still completes. -/
theorem test_write_while_busy : (wrote .dataIn 0x62000000 (pendingOn (.absorb [0x61]) State.reset)).map
      (fun t => (t.err, t.dataIn, (completeCommand t).bufcnt, (completeCommand t).len)) =
    some (.busyViolation, 0, 1, 8) := by decide +kernel

/-- V-K14 -/
theorem test_read_only_write_while_busy :
    (wrote .status 0xFFFFFFFF (pendingOn .final State.reset)).map (fun t => (t.err, t.busy)) = some (.none, true) ∧
    (wrote (.h 0) 0 (pendingOn .final State.reset)).map (fun t => (t.err, t.h.h0)) =
      some (.none, 0x67452301) := by decide

/-- V-K18, V-K19: DOUT and M in little-endian lanes. -/
theorem test_little_endian_reads :
    readAll [0x40, 0x44, 0x48, 0x4C, 0x50, 0x20, 0x80, 0xBC]
        { State.reset with h := abcState, buf := abcBlock, endian := .little } =
      [0x363E99A9, 0x6A810647, 0x71253EBA, 0x6CC25078, 0x9DD8D09C, 0xA9993E36, 0x80636261, 0x18000000] := by
  decide +kernel

/-- V-K20 -/
theorem test_config_reads_back : (wrote .config 0xFFFFFFFF State.reset).map (readAll [0x08]) = some [0x00000001] := by
  decide

/-- V-K21 -/
theorem test_reset_while_busy :
    (nextOf (step (hosting [.reset] (pendingOn .final { State.reset with dataIn := 1, err := .sequence })))).map
      (fun t => (t.busy, t.pending, t.err, t.dataIn)) = some (false, none, .none, 0) := by decide

/-- R58: POLL and PUT; an ABSORB of 5 bytes is no statement. -/
theorem test_pseudo_instructions :
    (Pseudo.put 3 0x61626300).expand =
      some [plain (.wr 4 0x0C 0x61626300), plain (.wr 4 0x00 0x00000022)] ∧
    (Pseudo.poll 1 9).expand = some [⟨some 1, .rd 4 0x04 9⟩, plain (.bnz 9 0x00000001 1)] ∧
    (Pseudo.put 5 0).expand = none := by decide

/-- P2: the program of the boot sequence for "abc" is a host program. -/
theorem test_digest_program : (digestProgram 0 [(3, 0x61626300)] 0).map programWellFormed = some true := by decide

/-! ### Witnesses: what each statement assumes, met by concrete values, for each clause at the ends of its range -/

/-- A command pending and no statement left to the host: the next step is its completion. -/
def completing (p : Pending) (s : State) : State := { s with busy := true, pending := some p }

/-- The next step is the host's, at `st`, with nothing pending. -/
theorem hosting_runs (st : HostStmt) (s : State) (h : s.busy = false) : (hosting [st] s).hostRuns st := by
  simp [State.hostRuns, hosting, mover, contended, hostLine, plain, h]

/-- The next step is the host's, at `st`, while a command is pending. -/
theorem hosting_runs_while_busy (st : HostStmt) (p : Pending) (s : State) :
    (hosting [st] (pendingOn p s)).hostRuns st := by
  simp [State.hostRuns, hosting, pendingOn, mover, contended, hostLine, plain]

theorem completing_performs (p : Pending) (s : State) (h : s.host.program = []) :
    (completing p s).enginePerforms p := by
  simp [State.enginePerforms, completing, mover, contended, hostLine, h]

/-- With the host's program ended and no command pending the run stands still. -/
theorem steps_ended (s : State) (k : Nat) (h : step s = .next s) : steps k s = .next s := by
  induction k with
  | zero => rfl
  | succ k ih => rw [steps_succ s s k h, ih]

theorem witness_DecodeAndEncodeAgree :
    (Instr.absorb 1).wellFormed = true ∧ (Instr.absorb 4).wellFormed = true ∧ Instr.block.wellFormed = true ∧
    decode 0x00000032 = .ok (.absorb 4) := ⟨rfl, rfl, rfl, rfl⟩

theorem witness_IllegalWordsOnlyRecordAnError : legal 0x00000005 = false ∧ legal 0xFFFFFFFF = false ∧
    State.reset.busy = false ∧ State.reset.err = .none ∧
    { State.reset with err := .sequence }.err ≠ .none ∧
    (pendingOn .final State.reset).busy = true ∧ (pendingOn .final State.reset).err = .none := by decide

/-- The ranges of the statements on rotations, word bytes, schedule words and rounds, at their ends. -/
theorem witness_numeric_ranges : (31 : Nat) ≤ 31 ∧ (31 : Nat) < 32 ∧ (7 : Nat) < 8 ∧
    (16 : Nat) ≤ 16 ∧ (79 : Nat) < 80 ∧ (19 : Nat) ≤ 19 ∧ (20 : Nat) ≤ 39 ∧ (40 : Nat) ≤ 59 ∧ (60 : Nat) ≤ 79 ∧
    (1 : Nat) ≤ 4 ∧ (4 : Nat) < 5 := by decide

theorem witness_ZeroFillIsLeast : (0 + 1 + 55 + 8) % 64 = 0 ∧ (56 + 1 + 63 + 8) % 64 = 0 := by decide

theorem witness_PaddedMessageInvariants : ([] : List Byte).length ≤ maxMsgBytes ∧
    (0 : Nat) < 1 ∧ 55 < (pad []).length - 8 ∧ (List.replicate 55 (0x61 : Byte)).length ≤ maxMsgBytes ∧
    ((List.replicate 55 (0x61 : Byte)).length + 9) % 64 = 0 := by decide

theorem witness_PadTailIsTheEndOfPad :
    (55 : Fin 64).val = (List.replicate 55 (0x61 : Byte)).length % 64 ∧
    (bufOf (List.replicate 55 0x61)).toList.take 55 = (List.replicate 55 0x61).drop (55 - 55) ∧
    (56 : Fin 64).val = (List.replicate 56 (0x61 : Byte)).length % 64 ∧
    (bufOf (List.replicate 56 0x61)).toList.take 56 = (List.replicate 56 0x61).drop (56 - 56) := by decide +kernel

theorem witness_ParseSlicesInOrder : (List.replicate 65 (0x00 : Byte)).length % 64 ≠ 0 ∧
    (List.replicate 128 (0x00 : Byte)).length % 64 = 0 ∧ 1 < (blocks (List.replicate 128 0x00)).length := by decide

theorem witness_CompressIsEightyRounds : (expand (bufOf [])).length = 80 ∧ (0 : Nat) < 80 ∧ 79 < 80 := by decide +kernel

theorem witness_idle_state : State.reset.busy = false ∧ State.reset.err = .none ∧ State.reset.done = false ∧
    State.reset.bufcnt = 0 := by decide

/-- The last ABSORB 4 that fits, one that leaves the block at 63 bytes, one that fills it and one that goes past it. -/
theorem witness_Absorb : (Instr.absorb 1).wellFormed = true ∧ (Instr.absorb 4).wellFormed = true ∧
    (BitVec.ofNat 64 (8 * (2 ^ 61 - 5))).toNat / 8 + 4 = 2 ^ 61 - 1 ∧ (0 : BitVec 64).toNat / 8 + 4 ≤ 2 ^ 61 - 1 ∧
    { State.reset with bufcnt := 59, len := 472 }.bufcnt.val + 4 < 64 ∧
    { State.reset with bufcnt := 60, len := 480 }.bufcnt.val + 4 = 64 ∧
    { State.reset with bufcnt := 63, len := 504 }.bufcnt.val + 4 > 64 := by decide

theorem witness_FinalPadsAndFinishes : { State.reset with bufcnt := 55, len := 440 }.bufcnt.val ≤ 55 ∧
    56 ≤ { State.reset with bufcnt := 56, len := 448 }.bufcnt.val := by decide

theorem witness_busy_state : (pendingOn .block State.reset).busy = true ∧
    (pendingOn .block State.reset).pending = some .block ∧ (pendingOn .init State.reset).pending = some .init :=
  ⟨rfl, rfl, rfl⟩

theorem witness_TerminalErrorIgnoresMessageCommands : { State.reset with err := .illegalCommand }.busy = false ∧
    { State.reset with err := .illegalCommand }.err ≠ .none := by decide

theorem witness_MessageCommandsAfterFinalAreSequenceErrors : { State.reset with done := true }.busy = false ∧
    { State.reset with done := true }.err = .none ∧ { State.reset with done := true }.done = true := by decide

theorem witness_LengthAndBlockErrors :
    2 ^ 61 - 1 < { State.reset with len := BitVec.ofNat 64 (8 * (2 ^ 61 - 2)) }.len.toNat / 8 + 2 ∧
    { State.reset with bufcnt := 1, len := 8 }.bufcnt.val ≠ 0 ∧
    { State.reset with bufcnt := 63, len := 504 }.bufcnt.val ≠ 0 := by decide

theorem witness_RegisterMapIsOneToOne : 0x1C % 4 = 0 ∧ 0xFC % 4 = 0 ∧ 0xFC < 256 ∧ 0xBC < 0xC0 := by decide

theorem witness_AccessesOutsideTheWindowStop : (2 : Nat) ≠ 4 ∧ 0x02 % 4 ≠ 0 ∧ 0x100 % 4 = 0 ∧ 256 ≤ 0x100 ∧
    0xFC % 4 = 0 ∧ 0xFC < 256 := by decide

theorem witness_offsets : Reg.ofOffset 0x1C = none ∧ Reg.ofOffset 0x34 = none ∧ Reg.ofOffset 0x3C = none ∧
    Reg.ofOffset 0x54 = none ∧ Reg.ofOffset 0x7C = none ∧ Reg.ofOffset 0xC0 = none ∧ Reg.ofOffset 0xFC = none ∧
    Reg.ofOffset 0x18 = some .id ∧ Reg.ofOffset 0xBC = some (.m 15) := by decide

theorem witness_BlockWindowWrites : (3 : Fin 64).val < 4 * (1 : Fin 16).val ∧
    4 * (1 : Fin 16).val + 4 ≤ (8 : Fin 64).val ∧ (59 : Fin 64).val < 4 * (15 : Fin 16).val := by decide

theorem witness_StepRunsTheDecodedCommand :
    (hosting [.write .cmd 0x12] State.reset).hostRuns (.write .cmd 0x12) ∧
    (hosting [.write .cmd 0x12] (pendingOn .final State.reset)).hostRuns (.write .cmd 0x12) ∧
    decode 0x12 = .ok (.absorb 2) ∧ (hosting [.write .cmd 0x12] State.reset).busy = false :=
  ⟨hosting_runs _ _ rfl, hosting_runs_while_busy _ _ _, rfl, rfl⟩

theorem witness_PlacedCommandRunsNext : decodeTableWord 32 0x00000032 = some (.absorb 4) ∧
    decodeTableWord 32 0x00000000 = some .nop := by decide

/-- A state for each error of R94's table. -/
theorem witness_StatusFieldsStandAtTheirBits : { State.reset with err := .inputTooLarge }.err = .inputTooLarge ∧
    { State.reset with err := .invalidBlockLength }.err = .invalidBlockLength ∧
    { State.reset with err := .sequence }.err = .sequence ∧
    { State.reset with err := .busyViolation }.err = .busyViolation ∧
    { State.reset with err := .illegalCommand }.err = .illegalCommand ∧ State.reset.err = .none ∧
    State.reset.busy = false := by decide

/-- A BNZ on the variable 5, which holds 1: not taken, taken to the label 7, and taken to a label that is missing. -/
theorem witness_HostStatementsRun :
    (hosting [.read .status 0] (pendingOn .final State.reset)).hostRuns (.read .status 0) ∧ (1 : Nat) ≠ 0 ∧
    (hosting [.write .cmd 0x1] State.reset).hostRuns (.write .cmd 0x1) ∧
    ∃ (s u : State), s.hostRuns (.bnz 5 0x1 7) ∧ hostVar 5 s &&& 0x1 ≠ 0 ∧ labelLine s.host.program 7 = some 0 ∧
      u.hostRuns (.bnz 5 0x1 8) ∧ hostVar 5 u &&& 0x1 ≠ 0 ∧ labelLine u.host.program 8 = none ∧
      ∃ v : State, v.hostRuns (.bnz 5 0x2 7) ∧ hostVar 5 v &&& 0x2 = 0 := by
  refine ⟨hosting_runs_while_busy _ _ _, by decide, hosting_runs _ _ rfl,
    { State.reset with host := { program := [⟨some 7, .bnz 5 0x1 7⟩], pc := 0, reads := [(5, 1)] } },
    { State.reset with host := { program := [⟨some 7, .bnz 5 0x1 8⟩], pc := 0, reads := [(5, 1)] } }, ⟨rfl, rfl⟩, ?_, rfl,
    ⟨rfl, rfl⟩, ?_, rfl,
    { State.reset with host := { program := [⟨some 7, .bnz 5 0x2 7⟩], pc := 0, reads := [(5, 1)] } }, ⟨rfl, rfl⟩, rfl⟩ <;>
    decide

theorem witness_ResetRestoresEveryRegister :
    (hosting [.reset] (pendingOn .final { State.reset with done := true })).hostRuns .reset :=
  hosting_runs_while_busy _ _ _

theorem witness_CompletionStepFinishesThePendingCommand :
    (completing (.absorb [0x61]) State.reset).enginePerforms (.absorb [0x61]) ∧
    (completing .init State.reset).enginePerforms .init ∧
    (completing .init State.reset).busy = true ∧ hostLine (completing .init State.reset) = none :=
  ⟨completing_performs _ _ rfl, completing_performs _ _ rfl, rfl, rfl⟩

theorem witness_EitherAgentMayMoveFirst : (hosting [.reset] (pendingOn .final State.reset)).busy = true ∧
    (hostLine (hosting [.reset] (pendingOn .final State.reset))).isSome = true ∧ State.reset.ended = true := by decide

theorem witness_CompletionDoesNotDependOnWhenItRuns : ∃ t : State,
    (hosting [.write .dataIn 0x62000000] (pendingOn (.absorb [0x61]) State.reset)).busy = true ∧
    (hosting [.write .dataIn 0x62000000] (pendingOn (.absorb [0x61]) State.reset)).hostRuns (.write .dataIn 0x62000000) ∧
    HostStmt.write .dataIn 0x62000000 ≠ .reset ∧
    step (hosting [.write .dataIn 0x62000000] (pendingOn (.absorb [0x61]) State.reset)) = .next t ∧
    (hosting [.write .cmd 0x1] (pendingOn .init State.reset)).pending = some .init :=
  ⟨_, rfl, hosting_runs_while_busy _ _ _, by decide, rfl, rfl⟩

/-- Two buffers that agree on the one buffered byte and differ behind it, with either command pending. -/
theorem witness_LeftoverBytesDoNotMatter :
    (∀ k : Fin 64, k.val < (pendingOn .final { State.reset with bufcnt := 1, len := 8 }).bufcnt.val →
      (bufOf [0x00, 0xFF])[k.val] = (pendingOn .final { State.reset with bufcnt := 1, len := 8 }).buf[k.val]) ∧
    (pendingOn .final State.reset).pending = some .final ∧
    (pendingOn (.absorb [0x61]) State.reset).pending = some (.absorb [0x61]) := by decide

/-- The run of a pending BLOCK whose host has ended, as far as the bound: it meets no stop, whatever LATENCY is. -/
theorem witness_PendingCommandsComplete : (completing .block State.reset).busy = true ∧ ∃ t : State,
    steps ((completing .block State.reset).turns.length + Config.latency (completing .block State.reset).issued + 1)
      (completing .block State.reset) = .next t := by
  have first := step_of_engine _ (completing_performs .block State.reset rfl).1
  refine ⟨rfl, completeCommand (takeTurn (completing .block State.reset)), ?_⟩
  rw [steps_succ _ _ _ first]
  exact steps_ended _ _ rfl

theorem witness_FirstErrorIsKeptUntilInitOrReset : ∃ s t u : State,
    s = hosting [.write .cmd 0x5] { State.reset with err := .sequence } ∧ step s = .next t ∧ s.err ≠ .none ∧
    ¬(s.enginePerforms .init ∨ s.hostRuns .reset) ∧
    (completing .init { State.reset with err := .sequence }).enginePerforms .init ∧
    (hosting [.reset] { State.reset with err := .sequence }).hostRuns .reset ∧
    step (hosting [.reset] { State.reset with err := .sequence }) = .next u := by
  refine ⟨_, _, _, rfl, rfl, by decide, ?_, completing_performs _ _ rfl, hosting_runs _ _ rfl, rfl⟩
  rintro (⟨-, h⟩ | ⟨-, h⟩)
  · exact absurd h (by decide)
  · exact absurd h (by decide)

theorem witness_ErrorsArePrecise : ∃ t : State,
    (hosting [.write .cmd 0x5] State.reset).hostRuns (.write .cmd 0x5) ∧ HostStmt.write .cmd 0x5 ≠ .reset ∧
    step (hosting [.write .cmd 0x5] State.reset) = .next t ∧ t.err ≠ (hosting [.write .cmd 0x5] State.reset).err :=
  ⟨_, hosting_runs _ _ rfl, by decide, rfl, by decide⟩

/-- Each register is changed by some step: H, LEN and BUFCNT by INIT's completion, DONE and BUF by FINAL's, BUF by an M
write, ERR by an illegal word, BUSY and PENDING by an issue, and ENDIAN and DATA_IN by their writes. -/
theorem witness_EachRegisterHasItsWriters :
    (nextOf (step (completing .init { State.reset with h := abcState, len := 24, bufcnt := 3 }))).map
      (fun t => (t.h, t.len, t.bufcnt)) = some (HashState.iv, 0, 0) ∧ abcState ≠ HashState.iv ∧
    (nextOf (step (completing .final State.reset))).map (fun t => (t.done, t.buf[0])) = some (true, 0x80) ∧
    (wrote (.m 15) 0x18 State.reset).map (fun t => t.buf[63]) = some 0x18 ∧
    (wrote .cmd 0x5 State.reset).map State.err = some .illegalCommand ∧
    (wrote .cmd 0x3 State.reset).map (fun t => (t.busy, t.pending)) = some (true, some .final) ∧
    (wrote .config 0x1 State.reset).map State.endian = some .little ∧
    (wrote .dataIn 0x1 State.reset).map State.dataIn = some 0x1 := by decide +kernel

/-- A state that meets the invariant and takes a step: the last ABSORB that the length limit allows, completing. -/
theorem witness_EveryStepKeepsTheInvariant :
    (completing (.absorb [0x61]) { State.reset with len := BitVec.ofNat 64 (8 * (2 ^ 61 - 2)), bufcnt := 62 }).Inv ∧
    ∃ t : State, step (completing (.absorb [0x61])
      { State.reset with len := BitVec.ofNat 64 (8 * (2 ^ 61 - 2)), bufcnt := 62 }) = .next t :=
  ⟨⟨rfl, by decide, by decide, fun _ => by decide, fun h => by simp [completing, State.reset] at h⟩, ⟨_, rfl⟩⟩

theorem witness_ResetAndInitStartAMessage : ∃ t : State,
    (completing .init { State.reset with err := .sequence }).enginePerforms .init ∧
    step (completing .init { State.reset with err := .sequence }) = .next t :=
  ⟨_, completing_performs _ _ rfl, step_of_engine _ rfl⟩

theorem messageStart_of_reset (s : State) (h : s.busy = false ∧ s.pending = none ∧ s.h = HashState.iv ∧ s.len = 0 ∧
    s.bufcnt = 0 ∧ s.done = false ∧ s.err = .none) : s.MessageStart :=
  ⟨h.1, h.2.1, h.2.2.1, h.2.2.2.1, h.2.2.2.2.1, h.2.2.2.2.2.1, h.2.2.2.2.2.2⟩

/-- A host about to issue ABSORB 1 and FINAL, with these turns where both agents can move. -/
def streamingState (turns : List Agent) : State :=
  { State.reset with
    dataIn := 0x61000000
    host := { program := [plain (.write .cmd 0x2), plain (.write .cmd 0x3)], pc := 0, reads := [] }
    turns := turns }

/-- The message [0x61], absorbed in one ABSORB, with FINAL pending next: the premises of both statements on streaming. -/
theorem witness_Streaming :
    ∃ s t : State, Streaming [0x61] s ∧ s.enginePerforms .final ∧ step s = .next t := by
  have h0 : Streaming [] (streamingState [.engine]) :=
    .start _ (messageStart_of_reset _ ⟨rfl, rfl, rfl, rfl, rfl, rfl, rfl⟩)
  have h1 := Streaming.host [] _ _ (.write .cmd 0x2) h0 ⟨rfl, rfl⟩ (by decide) rfl rfl
  have h2 := Streaming.absorb [] _ _ [0x61] h1 ⟨rfl, rfl⟩ rfl
  have h3 := Streaming.host [0x61] _ _ (.write .cmd 0x3) h2 ⟨rfl, rfl⟩ (by decide) rfl rfl
  exact ⟨_, _, h3, ⟨rfl, rfl⟩, step_of_engine _ rfl⟩

end Sys2Proof.Tests
end

section
/-! PROOFS. Words and bytes (00_scope.md R13 to R15): rotation, word assembly and the byte swap. -/

namespace Sys2Proof.Proofs
open Sys2Proof.Machine

/-! ### Rotation (R13) -/

theorem rotl32_eq_rotateLeft (x : Word) (n : Nat) : rotl32 x n = x.rotateLeft n := rfl

theorem rotl32_mod (x : Word) (n : Nat) : rotl32 x (n % 32) = rotl32 x n :=
  BitVec.rotateLeft_mod_eq_rotateLeft

theorem rotl32_zero (x : Word) : rotl32 x 0 = x := by
  have out : x >>> 32 = 0#32 := BitVec.ushiftRight_eq_zero (Nat.le_refl 32)
  simp [rotl32, out]

/-- Over the naturals the shifts are a product and a quotient, cut to 32 bits at the end. -/
theorem rotl32_toNat (x : Word) (n : Nat) (hn : n ≤ 31) :
    (rotl32 x n).toNat = (x.toNat * 2 ^ n ||| x.toNat / 2 ^ (32 - n)) % 2 ^ 32 := by
  have right_lt : x.toNat / 2 ^ (32 - n) < 2 ^ 32 := (Nat.div_le_self _ _).trans_lt x.isLt
  rw [rotl32, Nat.mod_eq_of_lt (by omega : n < 32), BitVec.toNat_or, BitVec.toNat_shiftLeft,
    BitVec.toNat_ushiftRight, Nat.shiftLeft_eq, Nat.shiftRight_eq_div_pow, Nat.or_mod_two_pow,
    Nat.mod_eq_of_lt right_lt]

/-- Bit `j` goes to bit `(j + n) mod 32`: below bit 32 it comes from the left shift, past bit 31 from the right
shift, which re-enters it at bit 0. -/
theorem rotl32_getLsbD (x : Word) (n j : Nat) (hj : j < 32) :
    (rotl32 x n).getLsbD ((j + n) % 32) = x.getLsbD j := by
  rw [rotl32_eq_rotateLeft, BitVec.getLsbD_rotateLeft]
  by_cases stays : j + n % 32 < 32
  · have target : (j + n) % 32 = j + n % 32 := by omega
    simp [target, stays]
  · have target : (j + n) % 32 = j + n % 32 - 32 := by omega
    have low : j + n % 32 - 32 < n % 32 := by omega
    have source : 32 - n % 32 + (j + n % 32 - 32) = j := by omega
    simp [target, low, source]

/-- Settles O6: the model's rotation is the library's, whose bits are known, and its value is R13's formula. -/
theorem rotationMovesEveryBit : Obligations.RotationMovesEveryBit := fun x n =>
  ⟨rotl32_toNat x n, rotl32_getLsbD x n, (rotl32_mod x n).symm, rotl32_zero x,
    (rotl32_mod x 32).symm.trans (rotl32_zero x)⟩

/-! ### Word assembly and the byte swap (R14, R15) -/

theorem bytesBe32_getElem (w : Word) (k : Nat) (hk : k < 4) :
    (bytesBe32 w)[k] = w.extractLsb' (24 - 8 * k) 8 := by
  interval_cases k <;> rfl

@[simp] theorem bytesBe32_be32 (b : Vector Byte 4) : bytesBe32 (be32 b) = b := by
  apply Vector.ext
  intro k hk
  rw [bytesBe32_getElem _ k hk, be32_byte b k hk]

@[simp] theorem be32_bytesBe32 (w : Word) : be32 (bytesBe32 w) = w := by
  apply word_ext_bytes
  intro k hk
  rw [be32_byte _ k hk, bytesBe32_getElem w k hk]

theorem bswap32_eq_be32_reverse (w : Word) : bswap32 w = be32 (bytesBe32 w).reverse := by
  refine congrArg be32 (Vector.ext fun k hk => ?_)
  rw [Vector.getElem_reverse, bytesBe32_getElem]
  interval_cases k <;> rfl

theorem bytesBe32_bswap32 (w : Word) : bytesBe32 (bswap32 w) = (bytesBe32 w).reverse := by
  rw [bswap32_eq_be32_reverse, bytesBe32_be32]

/-- Reversing the four bytes twice gives them back (R15). -/
theorem bswap32_bswap32 (w : Word) : bswap32 (bswap32 w) = w := by
  rw [bswap32_eq_be32_reverse (bswap32 w), bytesBe32_bswap32, Vector.reverse_reverse, be32_bytesBe32]

theorem be64_getD (n : BitVec 64) (k : Nat) (hk : k < 8) :
    (be64 n).getD k 0 = n.extractLsb' (56 - 8 * k) 8 := by
  interval_cases k <;> rfl

/-- Settles O7: a word and its four bytes determine each other, and the byte swap reverses the bytes. -/
theorem wordAssemblyIsBigEndian : Obligations.WordAssemblyIsBigEndian :=
  ⟨fun b => ⟨be32_toNat b, bytesBe32_be32 b⟩,
    fun w => ⟨be32_bytesBe32 w, bswap32_bswap32 w, bytesBe32_bswap32 w⟩,
    fun n => ⟨be64_length n, be64_getD n⟩⟩

end Sys2Proof.Proofs
end

section
/-! PROOFS. CONFIG and DATA_IN (10_state.md R30, R31): what a write does, idle and busy, and what a read gives. -/

namespace Sys2Proof.Proofs
open Sys2Proof.Machine

/-! ### Writes that are dropped while busy (R85, R100) -/

theorem writeWhenIdle_of_idle (s t : State) (h : s.busy = false) : writeWhenIdle s t = t := by
  simp [writeWhenIdle, h]

theorem writeWhenIdle_of_busy (s t : State) (h : s.busy = true) :
    writeWhenIdle s t = raiseError .busyViolation s := by
  simp [writeWhenIdle, h]

/-! ### ENDIAN as bit 0 of CONFIG (R30) -/

theorem laneOrder_ofBit (b : Bool) : LaneOrder.ofBit b = if b then .little else .big := by
  cases b <;> rfl

theorem laneOrder_bit_word (e : LaneOrder) :
    (BitVec.ofBool e.bit).setWidth 32 = if e = .little then 0x00000001 else 0x00000000 := by
  cases e <;> rfl

/-! ### The two registers in the window -/

theorem regWrite_config (v : Word) (s : State) : regWrite 0x08 v s =
    .next (writeWhenIdle s { s with endian := if v.getLsbD 0 then .little else .big }) := by
  rw [← laneOrder_ofBit]
  exact regWrite_offset .config v s

theorem regWrite_dataIn (v : Word) (s : State) :
    regWrite 0x0C v s = .next (writeWhenIdle s { s with dataIn := v }) :=
  regWrite_offset .dataIn v s

theorem regRead_config (s : State) :
    regRead 0x08 s = ((if s.endian = .little then 0x00000001 else 0x00000000), s) := by
  rw [← laneOrder_bit_word]
  exact regRead_offset .config s

theorem regRead_dataIn (s : State) : regRead 0x0C s = (s.dataIn, s) := regRead_offset .dataIn s

/-- Settles O35: both writes are the model's write that is dropped while busy, and no completion, INIT's included,
touches ENDIAN or DATA_IN. -/
theorem configAndDataInWrites : Obligations.ConfigAndDataInWrites := by
  refine ⟨rfl, rfl, fun s v => ⟨fun idle => ?_, fun busy => ?_, regRead_config s, regRead_dataIn s,
    fun _ => ⟨completeCommand_endian s, completeCommand_dataIn s⟩⟩⟩
  · rw [regWrite_config, regWrite_dataIn, writeWhenIdle_of_idle _ _ idle, writeWhenIdle_of_idle _ _ idle]
    exact ⟨rfl, rfl⟩
  · rw [regWrite_config, regWrite_dataIn, writeWhenIdle_of_busy _ _ busy, writeWhenIdle_of_busy _ _ busy]
    exact ⟨rfl, rfl⟩

end Sys2Proof.Proofs
end

section
/-! PROOFS. Read-only registers and reserved offsets (20_memory.md R36): where no register is, and what an access there
does. -/

namespace Sys2Proof.Proofs
open Sys2Proof.Machine

/-! ### Offsets that bear no register (R35) -/

theorem ofOffset_eq_none_iff (off : Nat) : Reg.ofOffset off = none ↔ ∀ r : Reg, r.offset ≠ off := by
  constructor
  · rintro none_at r rfl
    simp at none_at
  · intro no_reg
    rw [Option.eq_none_iff_forall_ne_some]
    exact fun r found => no_reg r (offset_of_ofOffset off r found)

/-- The registers end at ID = 0x18, H4 = 0x30, DOUT4 = 0x50 and M15 = 0xBC; each gap of R36 begins past one of them and
stops short of the next. -/
theorem ofOffset_reserved (off : Nat)
    (reserved : off = 0x1C ∨ (0x34 ≤ off ∧ off ≤ 0x3C) ∨ (0x54 ≤ off ∧ off ≤ 0x7C) ∨ 0xC0 ≤ off) :
    Reg.ofOffset off = none := by
  rw [ofOffset_eq_none_iff]
  intro r
  cases r with
  | cmd | status | config | dataIn | lenLo | lenHi | id => simp only [Reg.offset]; omega
  | h i | dout i => have last : i.val ≤ 4 := Nat.le_of_lt_succ i.isLt; simp only [Reg.offset]; omega
  | m j => have last : j.val ≤ 15 := Nat.le_of_lt_succ j.isLt; simp only [Reg.offset]; omega

/-! ### Accesses at such an offset -/

theorem regWrite_of_ofOffset_none (off : Nat) (v : Word) (s : State) (h : Reg.ofOffset off = none) :
    regWrite off v s = .next s := by
  rw [regWrite, h]

theorem regRead_of_ofOffset_none (off : Nat) (s : State) (h : Reg.ofOffset off = none) :
    regRead off s = (0x00000000, s) := by
  rw [regRead, h]

/-- Settles O34: a read-only register's write is found at its offset and answers the same state, and no register is at
a reserved offset. -/
theorem readOnlyAndReservedWritesAreIgnored : Obligations.ReadOnlyAndReservedWritesAreIgnored := by
  refine fun s v => ⟨regWrite_offset .status v s, regWrite_offset .lenLo v s, regWrite_offset .lenHi v s,
    regWrite_offset .id v s, fun i => regWrite_offset (.h i) v s, fun i => regWrite_offset (.dout i) v s,
    fun off _ reserved => ?_⟩
  have none_at : Reg.ofOffset off = none := ofOffset_reserved off (by omega)
  exact ⟨regWrite_of_ofOffset_none off v s none_at, regRead_of_ofOffset_none off s none_at⟩

end Sys2Proof.Proofs
end

section
/-! PROOFS. The command word (30_encoding.md R50 to R58): what the decoder accepts, field by field, its agreement with
the encoder, what an illegal word does when it is written to CMD, and the assembler's pseudo-instructions. -/

namespace Sys2Proof.Proofs
open Sys2Proof.Machine

/-! ### The three fields of a word (R50) -/

@[simp] theorem opField_commandWord (n : BitVec 2) (o : BitVec 4) : opField (commandWord n o) = o :=
  BitVec.extractLsb'_append_eq_right

@[simp] theorem nbm1Field_commandWord (n : BitVec 2) (o : BitVec 4) : nbm1Field (commandWord n o) = n := by
  revert n o
  decide

@[simp] theorem rsvField_commandWord (n : BitVec 2) (o : BitVec 4) : rsvField (commandWord n o) = 0 := by
  revert n o
  decide

/-- A word whose reserved bits are 0 is its other two fields put together. -/
theorem commandWord_fields (v : Word) (rsv : rsvField v = 0) : commandWord (nbm1Field v) (opField v) = v := by
  have upper : rsvField v ++ nbm1Field v = v.extractLsb' 4 28 :=
    BitVec.extractLsb'_append_extractLsb'_eq_extractLsb' rfl
  rw [commandWord, ← rsv, upper]
  exact BitVec.extractLsb'_append_extractLsb' (w := 28) (len := 4)

/-! ### What the decoder accepts (R52) -/

theorem plainCommand_eq_ok_iff (v : Word) (c i : Instr) :
    plainCommand v c = .ok i ↔ nbm1Field v = 0 ∧ i = c := by
  unfold plainCommand
  split <;> simp_all [eq_comm]

/-- The decoder, row by row of R52: what the fields of a word that decodes are. -/
theorem decode_eq_ok_iff (v : Word) (i : Instr) : decode v = .ok i ↔ rsvField v = 0 ∧
    ((opField v = 0x0 ∧ nbm1Field v = 0 ∧ i = .nop) ∨
     (opField v = 0x1 ∧ nbm1Field v = 0 ∧ i = .init) ∨
     (opField v = 0x2 ∧ i = .absorb (byteCount (nbm1Field v))) ∨
     (opField v = 0x3 ∧ nbm1Field v = 0 ∧ i = .final) ∨
     (opField v = 0x4 ∧ nbm1Field v = 0 ∧ i = .block)) := by
  by_cases rsv : rsvField v = 0
  · rw [decode, if_neg (not_not.2 rsv)]
    simp only [BitVec.toNat_eq (x := opField v)]
    split
    case h_3 op => simp [op, rsv, eq_comm (b := i)]
    case h_6 => simp_all
    all_goals simp [*, plainCommand_eq_ok_iff]
  · rw [decode, if_pos rsv]
    simp only [rsv, false_and, reduceCtorEq]

theorem encode_of_decode (v : Word) (i : Instr) (h : decode v = .ok i) : encode i = v := by
  obtain ⟨rsv, row⟩ := (decode_eq_ok_iff v i).1 h
  rw [← commandWord_fields v rsv]
  rcases row with ⟨op, nbm1, rfl⟩ | ⟨op, nbm1, rfl⟩ | ⟨op, rfl⟩ | ⟨op, nbm1, rfl⟩ | ⟨op, nbm1, rfl⟩
  · rw [op, nbm1, encode]
  · rw [op, nbm1, encode]
  · simp [op, encode, byteCount]
  · rw [op, nbm1, encode]
  · rw [op, nbm1, encode]

theorem wellFormed_absorb_iff (n : Nat) : (Instr.absorb n).wellFormed = true ↔ 1 ≤ n ∧ n ≤ 4 := by
  simp [Instr.wellFormed]

theorem decode_encode (i : Instr) (wf : i.wellFormed = true) : decode (encode i) = .ok i := by
  rw [decode_eq_ok_iff]
  cases i with
  | absorb n =>
    obtain ⟨low, high⟩ := (wellFormed_absorb_iff n).1 wf
    have count : byteCount (BitVec.ofNat 2 (n - 1)) = n := by
      rw [byteCount, BitVec.toNat_ofNat]
      omega
    simp [encode, count]
  | nop | init | final | block => simp [encode]

/-- The well-formed commands, in the order of the rows of R52. -/
def commands : List Instr :=
  [.nop, .init, .absorb 1, .absorb 2, .absorb 3, .absorb 4, .final, .block]

theorem mem_commands_iff (i : Instr) : i ∈ commands ↔ i.wellFormed = true := by
  cases i with
  | absorb n =>
    have row : Instr.absorb n ∈ commands ↔ n = 1 ∨ n = 2 ∨ n = 3 ∨ n = 4 := by simp [commands]
    rw [row, wellFormed_absorb_iff]
    omega
  | nop | init | final | block => simp [commands, Instr.wellFormed]

theorem decode_eq_ok_iff_encode (v : Word) (i : Instr) : decode v = .ok i ↔ i ∈ commands ∧ encode i = v := by
  rw [mem_commands_iff]
  constructor
  · exact fun h => ⟨decode_wellFormed v i h, encode_of_decode v i h⟩
  · rintro ⟨wf, rfl⟩
    exact decode_encode i wf

/-- Settles O2: the rows of the map are the eight well-formed commands, each with its encoding. -/
theorem decodeIsTheOpcodeMap : Obligations.DecodeIsTheOpcodeMap := by
  intro v i
  show _ ↔ (v, i) ∈ commands.map fun c => (encode c, c)
  rw [decode_eq_ok_iff_encode]
  simp [and_comm]

/-! ### The legal words (R53) -/

theorem legal_iff (v : Word) : legal v = true ↔ rsvField v = 0 ∧ (opField v = 0x2 ∨
    ((opField v = 0x0 ∨ opField v = 0x1 ∨ opField v = 0x3 ∨ opField v = 0x4) ∧ nbm1Field v = 0)) := by
  simp [legal]

theorem legal_iff_decodes (v : Word) : legal v = true ↔ ∃ i, decode v = .ok i := by
  simp only [legal_iff, decode_eq_ok_iff, exists_and_left, exists_or, exists_eq]
  tauto

/-- Settles O3: the words that decode are the encodings of the eight commands. -/
theorem legalWordsAreTheEightCommands : Obligations.LegalWordsAreTheEightCommands := by
  refine fun v => ⟨legal_iff v, legal_iff_decodes v, ?_⟩
  show _ ↔ v ∈ commands.map encode
  simp only [legal_iff_decodes, decode_eq_ok_iff_encode, List.mem_map]

/-! ### The illegal words and what a CMD write of one does (R54, R101) -/

/-- The opcodes below 5 are the five that R52 gives to commands. -/
theorem five_le_toNat_iff (o : BitVec 4) :
    0x5 ≤ o.toNat ↔ ¬ (o = 0x0 ∨ o = 0x1 ∨ o = 0x2 ∨ o = 0x3 ∨ o = 0x4) := by
  revert o
  decide

theorem legal_eq_false_iff (v : Word) : legal v = false ↔ 0x5 ≤ (opField v).toNat ∨
    ((opField v = 0x0 ∨ opField v = 0x1 ∨ opField v = 0x3 ∨ opField v = 0x4) ∧ nbm1Field v ≠ 0) ∨
    rsvField v ≠ 0 := by
  rw [← Bool.not_eq_true, legal_iff, five_le_toNat_iff]
  have absorb_only : opField v = 0x2 →
      ¬ (opField v = 0x0 ∨ opField v = 0x1 ∨ opField v = 0x3 ∨ opField v = 0x4) := by
    intro op
    rw [op]
    decide
  tauto

theorem issue_of_illegal (v : Word) (s : State) (illegal : legal v = false) :
    issue v s = .next (raiseError (if s.busy then .busyViolation else .illegalCommand) s) := by
  rw [issue]
  cases decoded : decode v with
  | error e => rfl
  | ok i => simp [(legal_iff_decodes v).2 ⟨i, decoded⟩] at illegal

theorem raiseError_of_no_err (c : ErrorCode) (s : State) (h : s.err = .none) :
    raiseError c s = { s with err := c } := by
  rw [raiseError, if_pos h]

/-- Settles O5: an illegal word only raises an error, and raising one changes nothing where one stands. -/
theorem illegalWordsOnlyRecordAnError : Obligations.IllegalWordsOnlyRecordAnError := by
  refine fun v s => ⟨legal_eq_false_iff v, fun illegal => ?_⟩
  rw [issue_of_illegal v s illegal]
  refine ⟨fun idle err => ?_, fun _ err => ?_, fun busy err => ?_, fun _ err => ?_⟩
  · simp only [idle, raiseError_of_no_err _ s err, Bool.false_eq_true, if_false]
  · rw [raiseError_of_err _ s err]
  · simp only [busy, raiseError_of_no_err _ s err, if_true]
  · rw [raiseError_of_err _ s err]

/-! ### The assembler's pseudo-instructions (R58) -/

theorem commandLine_of_wellFormed (i : Instr) (wf : i.wellFormed = true) :
    commandLine i = some [plain (.wr 4 0x00 (encode i))] := by
  rw [commandLine, if_pos wf]
  rfl

theorem commandLine_of_ill_formed (i : Instr) (wf : ¬ i.wellFormed = true) : commandLine i = none := by
  rw [commandLine, if_neg wf]

theorem encode_absorb_toNat (n : Nat) (low : 1 ≤ n) (high : n ≤ 4) :
    (encode (.absorb n)).toNat = (n - 1) * 2 ^ 4 + 0x2 := by
  interval_cases n <;> rfl

/-- Settles O58: each expansion holds by evaluation but ABSORB's and PUT's, where n in 1..4 decides. -/
theorem pseudoInstructionsExpand : Obligations.PseudoInstructionsExpand := by
  refine ⟨fun _ => rfl, rfl, rfl, rfl, rfl, fun _ _ => rfl, fun n v low high => ?_, fun n v out => ?_⟩
  · have line := commandLine_of_wellFormed _ ((wellFormed_absorb_iff n).2 ⟨low, high⟩)
    refine ⟨encode (.absorb n), encode_absorb_toNat n low high, line, ?_⟩
    rw [Pseudo.expand, line]
    rfl
  · have line : commandLine (.absorb n) = none := by
      apply commandLine_of_ill_formed
      rw [wellFormed_absorb_iff]
      omega
    refine ⟨line, ?_⟩
    rw [Pseudo.expand, line]
    rfl

end Sys2Proof.Proofs
end

section
/-! PROOFS. The Padder (40_padder.md R60 to R65): the zero fill, the padded message byte by byte, its end, and FINAL,
which pads with that end. -/

namespace Sys2Proof.Proofs
open Sys2Proof.Machine

/-! ### The zero fill (R60) -/

/-- The counts that complete a padded message to whole blocks are the zero fill and what exceeds it by whole blocks. -/
theorem whole_blocks_iff (L k : Nat) : (L + 1 + k + 8) % 64 = 0 ↔ k % 64 = zeroFill L := by
  rw [zeroFill]
  omega

theorem zeroFill_lt (L : Nat) : zeroFill L < 64 := Nat.mod_lt _ (by decide)

theorem zeroFill_whole_blocks (L : Nat) : (L + 1 + zeroFill L + 8) % 64 = 0 :=
  (whole_blocks_iff L _).2 (Nat.mod_eq_of_lt (zeroFill_lt L))

theorem zeroFill_le_of_whole_blocks (L k : Nat) (h : (L + 1 + k + 8) % 64 = 0) : zeroFill L ≤ k :=
  (whole_blocks_iff L k).1 h ▸ Nat.mod_le k 64

theorem zeroFill_of_le (c : Nat) (h : c ≤ 55) : zeroFill c = 55 - c := by
  rw [zeroFill]
  omega

/-- From 56 on the fill ends the block of the marker and goes on to byte 56 of the next. -/
theorem zeroFill_of_ge (c : Nat) (h : 56 ≤ c) (hc : c < 64) : zeroFill c = (63 - c) + 56 := by
  rw [zeroFill]
  omega

/-- Settles O9: a count completes the blocks exactly where its residue is the zero fill. -/
theorem zeroFillIsLeast : Obligations.ZeroFillIsLeast := by
  refine fun L => ⟨?_, zeroFill_whole_blocks L, zeroFill_le_of_whole_blocks L, zeroFill_lt L⟩
  rw [zeroFill]
  omega

/-! ### The padded message (R61, R62) -/

theorem pad_length (m : List Byte) : (pad m).length = m.length + 1 + zeroFill m.length + 8 := by
  simp [pad]
  omega

theorem pad_length_eq_blocks (m : List Byte) : (pad m).length = 64 * ((m.length + 9 + 63) / 64) := by
  have whole := zeroFill_whole_blocks m.length
  have short := zeroFill_lt m.length
  rw [pad_length]
  omega

theorem pad_take_length (m : List Byte) : (pad m).take m.length = m := by
  simp [pad]

theorem pad_getD_marker (m : List Byte) : (pad m).getD m.length 0 = 0x80 := by
  simp [pad]

theorem pad_getD_fill (m : List Byte) (k : Nat) (marker : m.length < k) (field : k < (pad m).length - 8) :
    (pad m).getD k 0 = 0x00 := by
  rw [pad_length] at field
  rw [pad, List.getD_append _ _ _ _ (by simp; omega), List.getD_append_right _ _ _ _ (by simp; omega),
    List.getD_replicate _ (by simp; omega)]

theorem pad_drop_fill (m : List Byte) :
    (pad m).drop ((pad m).length - 8) = be64 (BitVec.ofNat 64 (8 * m.length)) := by
  rw [pad, List.length_append, be64_length, Nat.add_sub_cancel, List.drop_left]

theorem pad_of_zeroFill_zero (m : List Byte) (h : zeroFill m.length = 0) :
    pad m = m ++ [0x80] ++ be64 (BitVec.ofNat 64 (8 * m.length)) := by
  rw [pad, h, List.replicate_zero, List.append_nil]

/-- Settles O10: the four parts of the padded message, each found at its place; within the limit the bit length does not
wrap. -/
theorem paddedMessageInvariants : Obligations.PaddedMessageInvariants := by
  refine fun m limit => ⟨pad_length_eq_blocks m, ?_, pad_take_length m, pad_getD_marker m, pad_getD_fill m, ?_,
    fun full => pad_of_zeroFill_zero m (Nat.le_zero.1 (zeroFill_le_of_whole_blocks m.length 0 full))⟩
  · rw [blocks_length, pad_length_eq_blocks, Nat.mul_div_cancel_left _ (by decide)]
  · rw [pad_drop_fill, be64_value, BitVec.toNat_ofNat]
    omega

/-! ### The end of the padded message (R65) -/

/-- Behind the whole blocks of the message stands what FINAL pads the buffered rest with. -/
theorem pad_eq_append_padTail (m : List Byte) (B : Block) (c : Fin 64) (count : c.val = m.length % 64)
    (buffered : B.toList.take c.val = m.drop (m.length - c.val)) :
    pad m = m.take (m.length - c.val) ++ padTail B c (BitVec.ofNat 64 (8 * m.length)) := by
  rw [padTail, buffered, count, zeroFill_mod, pad]
  simp only [← List.append_assoc, List.take_append_drop]

/-- Settles O11: slicing goes over the split, since the part in front is whole blocks. -/
theorem padTailIsTheEndOfPad : Obligations.PadTailIsTheEndOfPad := by
  intro m B c count buffered
  have split := pad_eq_append_padTail m B c count buffered
  have whole : (m.take (m.length - c.val)).length % 64 = 0 := by
    rw [List.length_take]
    omega
  exact ⟨split, padTail_length B c _, by rw [split, blocks_append _ _ whole]⟩

/-! ### FINAL (R90) -/

theorem blocks_two (p q : List Byte) (hp : p.length = 64) (hq : q.length = 64) :
    blocks (p ++ q) = [Block.ofBytes p, Block.ofBytes q] := by
  rw [blocks_append p q (by omega), blocks_one p hp, blocks_one q hq]
  rfl

/-- The one padded block where the length field fits behind the marker. -/
def shortTail (B : Block) (c : Fin 64) (len : BitVec 64) : List Byte :=
  B.toList.take c.val ++ [0x80] ++ List.replicate (55 - c.val) 0x00 ++ be64 len

/-- The first of two padded blocks: the buffered bytes, the marker and zeros. -/
def markerBlock (B : Block) (c : Fin 64) : List Byte :=
  B.toList.take c.val ++ [0x80] ++ List.replicate (63 - c.val) 0x00

/-- The second of two padded blocks: zeros and the length field. -/
def lengthBlock (len : BitVec 64) : List Byte := List.replicate 56 0x00 ++ be64 len

theorem shortTail_length (B : Block) (c : Fin 64) (len : BitVec 64) (h : c.val ≤ 55) :
    (shortTail B c len).length = 64 := by
  simp [shortTail]
  omega

theorem markerBlock_length (B : Block) (c : Fin 64) : (markerBlock B c).length = 64 := by
  simp [markerBlock]
  omega

theorem lengthBlock_length (len : BitVec 64) : (lengthBlock len).length = 64 := by
  simp [lengthBlock]

theorem padTail_of_le (B : Block) (c : Fin 64) (len : BitVec 64) (h : c.val ≤ 55) :
    padTail B c len = shortTail B c len := by
  rw [padTail, zeroFill_of_le _ h, shortTail]

theorem padTail_of_ge (B : Block) (c : Fin 64) (len : BitVec 64) (h : 56 ≤ c.val) :
    padTail B c len = markerBlock B c ++ lengthBlock len := by
  rw [padTail, zeroFill_of_ge _ h c.isLt, List.replicate_add, markerBlock, lengthBlock]
  simp only [List.append_assoc]

theorem completeFinal_one_block (s : State) (h : s.bufcnt.val ≤ 55) :
    (completeFinal s).buf.toList = shortTail s.buf s.bufcnt s.len ∧
    (completeFinal s).h = foldBlock s.h (completeFinal s).buf := by
  have len := shortTail_length s.buf s.bufcnt s.len h
  rw [completeFinal_eq, padTail_of_le _ _ _ h, blocks_one _ len]
  exact ⟨ofBytes_toList _ len, rfl⟩

theorem completeFinal_two_blocks (s : State) (h : 56 ≤ s.bufcnt.val) :
    (completeFinal s).buf.toList = lengthBlock s.len ∧
    (completeFinal s).h =
      foldBlock (foldBlock s.h (Block.ofBytes (markerBlock s.buf s.bufcnt))) (completeFinal s).buf := by
  rw [completeFinal_eq, padTail_of_ge _ _ _ h, blocks_two _ _ (markerBlock_length _ _) (lengthBlock_length _)]
  exact ⟨ofBytes_toList _ (lengthBlock_length _), rfl⟩

theorem execFinal_accepts (s : State) (idle : s.busy = false) (no_err : s.err = .none) (not_done : s.done = false) :
    exec .final s = .next (accept .final s) :=
  congrArg Host.Outcome.next (issueMessage_accepts .final s idle no_err not_done)

/-- Settles O21: the issue accepts FINAL, and its completion folds the one or two blocks of the padded tail. -/
theorem finalPadsAndFinishes : Obligations.FinalPadsAndFinishes := by
  intro s idle no_err not_done
  have accepted := execFinal_accepts s idle no_err not_done
  refine ⟨accept .final s, completeCommand (accept .final s), accepted, rfl, rfl, ?_⟩
  rw [completeCommand_of_pending _ .final rfl]
  refine ⟨?_, fun one => completeFinal_one_block (accept .final s) one, fun two => ?_⟩
  · simp only [performCommand, completeFinal_eq]
    rfl
  · obtain ⟨buf, h⟩ := completeFinal_two_blocks (accept .final s) two
    exact ⟨buf, _, ofBytes_toList _ (markerBlock_length _ _), h⟩

end Sys2Proof.Proofs
end

section
/-! PROOFS. The BlockParser (41_block_parser.md R66 to R69): slicing into blocks, and what BUF and H hold while a
message streams in. -/

namespace Sys2Proof.Proofs
open Sys2Proof.Machine

/-! ### Slicing (R66, R67) -/

theorem blocks_getElem? (p : List Byte) (i : Nat) (hi : i < p.length / 64) :
    (blocks p)[i]? = some (Block.ofBytes ((p.drop (64 * i)).take 64)) := by
  simp [blocks, hi]

/-- Byte k of the block sliced at 64·i is byte 64·i + k, where the sequence reaches that far. -/
theorem ofBytes_slice_getElem (p : List Byte) (i k : Nat) (hk : k < 64) (inside : 64 * i + k < p.length) :
    (Block.ofBytes ((p.drop (64 * i)).take 64))[k] = p[64 * i + k] := by
  rw [ofBytes_getElem _ _ hk, List.getD_eq_getElem _ _ (by simp; omega), List.getElem_take, List.getElem_drop]

theorem parse_of_whole (p : List Byte) (whole : p.length % 64 = 0) : parse p = .ok (blocks p) := if_pos whole

theorem parse_of_part (p : List Byte) (part : p.length % 64 ≠ 0) : parse p = .error .invalidBlockLength := if_neg part

/-- Settles O12: `parse` is its length check, and byte k of slice i is found behind the 64·i bytes dropped. -/
theorem parseSlicesInOrder : Obligations.ParseSlicesInOrder := by
  refine fun p => ⟨parse_of_part p, fun whole =>
    ⟨blocks p, parse_of_whole p whole, rfl, blocks_length p, fun i k hi => ?_⟩⟩
  rw [blocks_length] at hi
  have inside : 64 * i + k.val < p.length := by omega
  rw [blocks_getElem? p i hi, Option.map_some, ofBytes_slice_getElem p i k k.isLt inside,
    List.getElem?_eq_getElem inside]

/-! ### What the host's statements leave of the message (R93) -/

/-- From `s` to `t` the registers of R18 that hold the message stay, and at most a command is accepted. -/
structure KeepsMessage (s t : State) : Prop where
  h : t.h = s.h
  buf : t.buf = s.buf
  bufcnt : t.bufcnt = s.bufcnt
  len : t.len = s.len
  done : t.done = s.done
  latch : t.pending = s.pending ∨ ∃ i p, Accepts i p s ∧ t.pending = some p

theorem write_m_not_keepsMessage (j : Fin 16) (v : Word) : (HostStmt.write (.m j) v).keepsMessage = false := by
  simp [HostStmt.write, HostStmt.keepsMessage]

/-- A register write that is not one to M0..M15 leaves the message. -/
theorem writeReg_keepsMessage (r : Reg) (v : Word) (s t : State) (keeps : (HostStmt.write r v).keepsMessage = true)
    (written : writeReg r v s = .next t) : KeepsMessage s t := by
  obtain ⟨u, answers, effect⟩ := writeReg_cases r v s
  obtain rfl : u = t := by simpa [answers] using written
  rcases effect with ⟨c, rfl⟩ | rfl | ⟨-, ⟨-, i, p, -, accepts, rfl⟩ | ⟨-, rfl⟩ | ⟨-, rfl⟩ | ⟨j, rfl, -⟩⟩
  · exact ⟨rfl, rfl, rfl, rfl, rfl, .inl rfl⟩
  · exact ⟨rfl, rfl, rfl, rfl, rfl, .inl rfl⟩
  · exact ⟨rfl, rfl, rfl, rfl, rfl, .inr ⟨i, p, accepts, rfl⟩⟩
  · exact ⟨rfl, rfl, rfl, rfl, rfl, .inl rfl⟩
  · exact ⟨rfl, rfl, rfl, rfl, rfl, .inl rfl⟩
  · simp [write_m_not_keepsMessage] at keeps

/-- A statement that R93 allows leaves the message. -/
theorem execStmt_keepsMessage (st : HostStmt) (s t : State) (keeps : st.keepsMessage = true)
    (run : execStmt st s = .next t) : KeepsMessage s t := by
  rcases execStmt_cases st s t run with ⟨r, v, rfl, written⟩ | ⟨rfl, -⟩ | ⟨off, var, v, k, -, rfl⟩ |
    ⟨var, mask, label, -, rfl | ⟨k, rfl⟩⟩ | ⟨rfl, -⟩
  · exact writeReg_keepsMessage r v s t keeps written
  · exact ⟨rfl, rfl, rfl, rfl, rfl, .inl rfl⟩
  · exact ⟨rfl, rfl, rfl, rfl, rfl, .inl rfl⟩
  · exact ⟨rfl, rfl, rfl, rfl, rfl, .inl rfl⟩
  · exact ⟨rfl, rfl, rfl, rfl, rfl, .inl rfl⟩
  · cases keeps

/-- An accepted ABSORB latches no more bytes than its issue has checked against the length limit (R97). -/
theorem length_fits_of_accepts_absorb (i : Instr) (bs : List Byte) (s : State) (accepts : Accepts i (.absorb bs) s) :
    messageBytes s.len + bs.length ≤ maxMsgBytes := by
  cases i with
  | absorb n =>
    obtain ⟨latched, -, -, fits⟩ := accepts
    have short : bs.length ≤ n := by
      cases latched
      exact List.length_take_le n _
    omega
  | nop => cases accepts
  | init => cases accepts
  | final => cases accepts.1
  | block => cases accepts.1

/-! ### The streaming invariant (R69, R93) -/

/-- What every state of a streaming run meets, with `m` the message taken in so far. -/
structure StreamInvariant (m : List Byte) (s : State) : Prop where
  intake : Intake m s
  not_done : s.done = false
  length : s.len.toNat = 8 * m.length
  /-- the bytes latched by a pending ABSORB still fit the length limit (R97) -/
  latched_fits : ∀ bs, s.pending = some (.absorb bs) → messageBytes s.len + bs.length ≤ maxMsgBytes
  no_error : s.err = .none

/-- The intake speaks of BUFCNT, BUF and H only. -/
theorem intake_of_eq (m : List Byte) (s t : State) (a : Intake m s) (bufcnt : t.bufcnt = s.bufcnt)
    (buf : t.buf = s.buf) (h : t.h = s.h) : Intake m t :=
  ⟨bufcnt ▸ a.count, buf ▸ a.buffered, h ▸ a.folded⟩

theorem streamInvariant_of_messageStart (s : State) (start : s.MessageStart) : StreamInvariant [] s where
  intake := ⟨by simp [start.empty], rfl, start.iv⟩
  not_done := start.not_done
  length := by simp [start.no_length]
  latched_fits bs latched := by simp [start.no_command] at latched
  no_error := start.no_error

theorem streamInvariant_of_keepsMessage (m : List Byte) (s t : State) (inv : StreamInvariant m s)
    (kept : KeepsMessage s t) (no_error : t.err = .none) : StreamInvariant m t where
  intake := intake_of_eq m s t inv.intake kept.bufcnt kept.buf kept.h
  not_done := kept.done.trans inv.not_done
  length := kept.len ▸ inv.length
  latched_fits bs latched := by
    rw [kept.len]
    rcases kept.latch with before | ⟨i, p, accepts, taken⟩
    · exact inv.latched_fits bs (before.symm.trans latched)
    · obtain rfl : p = .absorb bs := Option.some.inj (taken.symm.trans latched)
      exact length_fits_of_accepts_absorb i bs s accepts
  no_error := no_error

/-- A turn taken and the host's program counter are no part of the message. -/
theorem streamInvariant_takeTurn (m : List Byte) (s : State) (inv : StreamInvariant m s) :
    StreamInvariant m (takeTurn s) :=
  streamInvariant_of_keepsMessage m s _ inv ⟨rfl, rfl, rfl, rfl, rfl, .inl rfl⟩ inv.no_error

theorem streamInvariant_hostGoto (m : List Byte) (s : State) (k : Nat) (inv : StreamInvariant m s) :
    StreamInvariant m (hostGoto k s) :=
  streamInvariant_of_keepsMessage m s _ inv ⟨rfl, rfl, rfl, rfl, rfl, .inl rfl⟩ inv.no_error

/-- ABSORB's completion takes its latched bytes into the message. -/
theorem streamInvariant_absorb (m bs : List Byte) (s : State) (inv : StreamInvariant m s)
    (latched : s.pending = some (.absorb bs)) : StreamInvariant (m ++ bs) (completeCommand s) := by
  have completed : completeCommand s = finish (completeAbsorb bs s) := completeCommand_of_pending s _ latched
  have whole_bytes : s.len.toNat % 8 = 0 := by rw [inv.length, Nat.mul_mod_right]
  refine ⟨?_, ?_, ?_, ?_, ?_⟩
  · rw [completed]
    exact intake_of_eq _ _ _ (intake_bytes bs m s inv.intake) rfl rfl rfl
  · rw [completed, completeAbsorb_eq]
    exact inv.not_done
  · rw [completed, completeAbsorb_eq, finish_len, length_add _ _ whole_bytes (inv.latched_fits bs latched), inv.length,
      List.length_append, Nat.mul_add]
  · simp
  · simp [inv.no_error]

/-- The invariant holds at a message start, and host statements and completions of ABSORB keep it. -/
theorem streamInvariant_of_streaming (m : List Byte) (s : State) (run : Streaming m s) : StreamInvariant m s := by
  induction run with
  | start s start => exact streamInvariant_of_messageStart s start
  | host m s t st _ runs keeps stepped no_error inv =>
    rw [step_of_hostRuns s st runs] at stepped
    have kept := execStmt_keepsMessage st _ t keeps stepped
    have moved := streamInvariant_hostGoto m _ (s.host.pc + 1) (streamInvariant_takeTurn m s inv)
    exact streamInvariant_of_keepsMessage m _ t moved kept no_error
  | absorb m s t bs _ performs stepped inv =>
    obtain ⟨engine, latched⟩ := performs
    obtain rfl : completeCommand (takeTurn s) = t := by simpa [step_of_engine s engine] using stepped
    exact streamInvariant_absorb m bs (takeTurn s) (streamInvariant_takeTurn m s inv) latched

/-- Settles O56: the streaming invariant, with BUFCNT = len(m) mod 64 put into the buffered bytes. -/
theorem streamingKeepsTheUnfinishedBlock : Obligations.StreamingKeepsTheUnfinishedBlock := by
  intro m s run
  have inv := streamInvariant_of_streaming m s run
  obtain ⟨count, buffered, folded⟩ := inv.intake
  exact ⟨inv.not_done, inv.length, count, count.symm ▸ buffered, folded⟩

end Sys2Proof.Proofs
end

section
/-! PROOFS. The ScheduleExpander (42_schedule_expander.md R71, R72): the block's 16 words and the recurrence after
them. -/

namespace Sys2Proof.Proofs
open Sys2Proof.Machine

@[simp] theorem expand_length (B : Block) : (expand B).length = 80 := by
  rw [expand, extendSchedule_length, blockWords_length]

/-- The recurrence only appends: the block's own words stay in front (R71). -/
theorem expand_getD_of_lt (B : Block) (t : Fin 16) : (expand B).getD t.val 0 = be32 (Block.quad B t) := by
  have in_block : t.val < (blockWords B).length := t.isLt.trans_eq (blockWords_length B).symm
  rw [expand, extendSchedule_getD_old 64 _ t.val in_block, blockWords_getD]

/-- From word 16 on, each word is the recurrence over the finished schedule (R72). -/
theorem expand_getD_of_ge (B : Block) (t : Nat) (past_block : 16 ≤ t) (inside : t < 80) :
    (expand B).getD t 0 = scheduleWord (expand B) t := by
  have len := blockWords_length B
  exact extendSchedule_getD_new 64 (blockWords B) t (by omega) (by omega) (by omega)

/-- Settles O13: `expand` keeps the block's 16 words, and each of the 64 words it appends is `scheduleWord` of the
finished schedule at its own place, which is R72's rotation. -/
theorem scheduleRecurrence : Obligations.ScheduleRecurrence :=
  fun B => ⟨expand_length B, expand_getD_of_lt B, expand_getD_of_ge B⟩

end Sys2Proof.Proofs
end

section
/-! PROOFS. The Compressor (43_compressor.md R75 to R81): the phases of a round, the 80 rounds with the five sums after
them, and the 20 bytes of the digest. -/

namespace Sys2Proof.Proofs
open Sys2Proof.Machine

/-! ### The four phases (R75, R76) -/

theorem not_eq_xor_ones (x : Word) : ~~~x = x ^^^ 0xFFFFFFFF := BitVec.xor_allOnes.symm

/-- Settles O14: each range decides the comparisons with 20, 40 and 60; the first phase's NOT is an XOR with ones. -/
theorem roundPhases : Obligations.RoundPhases := by
  intro t x y z
  refine ⟨fun high => ?_, fun low high => ?_, fun low high => ?_, fun low high => ?_⟩
  · have phase : t < 20 := by omega
    simp only [roundFn, roundConstant, phase, if_true, not_eq_xor_ones, and_self]
  · have past : ¬ t < 20 := by omega
    have phase : t < 40 := by omega
    simp only [roundFn, roundConstant, past, phase, if_true, if_false, and_self]
  · have past : ¬ t < 20 ∧ ¬ t < 40 := by omega
    have phase : t < 60 := by omega
    simp only [roundFn, roundConstant, past, phase, if_true, if_false, and_self]
  · have past : ¬ t < 20 ∧ ¬ t < 40 ∧ ¬ t < 60 := by omega
    simp only [roundFn, roundConstant, past, if_false, and_self]

/-! ### The rounds and the sums (R77, R78) -/

/-- Round t comes after the rounds before it and takes schedule word W[t]. -/
theorem rounds_take_succ (W : List Word) (t : Nat) (v : Working) (ht : t < W.length) :
    rounds (W.take (t + 1)) 0 v = roundStep (rounds (W.take t) 0 v) t (W.getD t 0) := by
  have before : (W.take t).length = t := List.length_take_of_le ht.le
  rw [List.take_succ_eq_append_getElem ht, rounds_append, before, Nat.zero_add, List.getD_eq_getElem _ _ ht]
  rfl

/-- Settles O15: one more schedule word is one more `roundStep`, and the whole schedule is its first 80 words. -/
theorem compressIsEightyRounds : Obligations.CompressIsEightyRounds := by
  intro W h len
  refine ⟨rfl, fun t ht => ?_, rounds W 0 (Working.ofState h), ?_, ?_⟩
  · exact ⟨_, _, rfl, rounds_take_succ W t _ (len ▸ ht), rfl, rfl, rfl, rfl, rfl⟩
  · rw [List.take_of_length_le len.le]
  · rw [compress]
    exact ⟨BitVec.toNat_add _ _, BitVec.toNat_add _ _, BitVec.toNat_add _ _, BitVec.toNat_add _ _,
      BitVec.toNat_add _ _⟩

/-! ### The digest (R81, R39(c)) -/

theorem parse_pad (m : List Byte) : parse (pad m) = .ok (blocks (pad m)) := by
  apply parse_of_whole
  rw [pad_length_eq_blocks, Nat.mul_mod_right]

theorem digestBytes_eq_flatten (h : HashState) :
    digestBytes h = (Vector.ofFn fun i => bytesBe32 (h.get i)).flatten.toList := by
  simp [digestBytes, HashState.get, Vector.flatten, Vector.toList]

@[simp] theorem digestBytes_length (h : HashState) : (digestBytes h).length = 20 := rfl

theorem digestBytes_getD (h : HashState) (i : Fin 5) (k : Fin 4) :
    (digestBytes h).getD (4 * i.val + k.val) 0 = (bytesBe32 (h.get i))[k.val] := by
  have inside : 4 * i.val + k.val < (digestBytes h).length := by
    rw [digestBytes_length]
    omega
  have word : (4 * i.val + k.val) / 4 = i.val := by omega
  have byte : (4 * i.val + k.val) % 4 = k.val := by omega
  rw [List.getD_eq_getElem _ _ inside]
  simp only [digestBytes_eq_flatten, Vector.getElem_toList, Vector.getElem_flatten, Vector.getElem_ofFn, word, byte]

/-- Settles O16: the padded message is whole blocks, so `parse` gives them, and the digest is the bytes of their
fold. -/
theorem digestIsTheFoldOfThePaddedBlocks : Obligations.DigestIsTheFoldOfThePaddedBlocks := by
  refine fun m => ⟨⟨blocks (pad m), parse_pad m, rfl⟩, digestBytes_length _, fun i k => ?_⟩
  rw [digest, digestBytes_getD, bytesBe32_getElem _ k.val k.isLt]

end Sys2Proof.Proofs
end

section
/-! PROOFS. NOP (44_commands.md R87), and FINAL at the end of a streaming run (R93). -/

namespace Sys2Proof.Proofs
open Sys2Proof.Machine

/-! ### NOP (R87) -/

theorem execNop_of_idle (s : State) (idle : s.busy = false) : execNop s = .next s := by
  simp [execNop, idle]

theorem execNop_of_busy (s : State) (busy : s.busy = true) : execNop s = .next (raiseError .busyViolation s) := by
  simp [execNop, busy]

/-- Settles O17: a word that decodes to NOP is the encoding of NOP, which is 0. -/
theorem nopChangesNothing : Obligations.NopChangesNothing :=
  fun s => ⟨execNop_of_idle s, execNop_of_busy s, fun v decodes => (encode_of_decode v .nop decodes).symm⟩

/-! ### FINAL after a message has been taken in (R93) -/

/-- FINAL's padded blocks are the rest of the padded message, so they carry the fold of its whole blocks on to the
digest. -/
theorem completeFinal_h_of_intake (m : List Byte) (s : State) (intake : Intake m s)
    (len : s.len = BitVec.ofNat 64 (8 * m.length)) : (completeFinal s).h = digestState m := by
  have buffered : s.buf.toList.take s.bufcnt.val = m.drop (m.length - s.bufcnt.val) :=
    intake.count.symm ▸ intake.buffered
  obtain ⟨-, -, split⟩ := padTailIsTheEndOfPad m s.buf s.bufcnt intake.count buffered
  calc (completeFinal s).h
      = (blocks (padTail s.buf s.bufcnt s.len)).foldl foldBlock s.h := by rw [completeFinal_eq]
    _ = (blocks (padTail s.buf s.bufcnt s.len)).foldl foldBlock
          ((blocks (m.take (m.length - s.bufcnt.val))).foldl foldBlock HashState.iv) := by
        rw [intake.folded, intake.count]
    _ = (blocks (pad m)).foldl foldBlock HashState.iv := by rw [split, List.foldl_append, len]
    _ = digestState m := rfl

/-- A message whose bit length LEN holds is within the length limit (R26, R97). -/
theorem length_le_of_bit_length (m : List Byte) (len : BitVec 64) (bits : len.toNat = 8 * m.length) :
    m.length ≤ 2 ^ 61 - 1 := by
  have := len.isLt
  omega

/-- FINAL's completion in a state of a streaming run. -/
theorem completeCommand_final_of_stream (m : List Byte) (s : State) (inv : StreamInvariant m s)
    (latched : s.pending = some .final) :
    (completeCommand s).h = digestState m ∧ (completeCommand s).len = s.len ∧ (completeCommand s).done = true ∧
    (completeCommand s).bufcnt = 0 := by
  have len : s.len = BitVec.ofNat 64 (8 * m.length) := by rw [← inv.length, BitVec.ofNat_toNat, BitVec.setWidth_eq]
  rw [completeCommand_of_pending s .final latched]
  refine ⟨completeFinal_h_of_intake m s inv.intake len, ?_, rfl, rfl⟩
  rw [performCommand, completeFinal_eq]
  rfl

/-- Settles O55: the streaming invariant holds where FINAL completes, and a turn taken leaves it. -/
theorem streamingComputesTheDigest : Obligations.StreamingComputesTheDigest := by
  rintro m s run ⟨engine, latched⟩
  have inv := streamInvariant_takeTurn m s (streamInvariant_of_streaming m s run)
  obtain ⟨h, len, done, bufcnt⟩ := completeCommand_final_of_stream m (takeTurn s) inv latched
  have no_error : (completeCommand (takeTurn s)).err = .none := by
    rw [completeCommand_err, inv.no_error, ite_self]
  exact ⟨completeCommand (takeTurn s), step_of_engine s engine, h, len ▸ inv.length,
    length_le_of_bit_length m _ inv.length, done, no_error, bufcnt, completeCommand_busy _⟩

end Sys2Proof.Proofs
end

section
/-! PROOFS. Reset (70_reset_and_hazards.md R108). -/

namespace Sys2Proof.Proofs
open Sys2Proof.Machine

/-- The RESET statement as a step: SHA1CORE is reset whatever it was doing, and the host goes on past the statement. -/
theorem step_of_hostRuns_reset (s : State) (runs : s.hostRuns .reset) :
    step s = .next (resetCore (hostGoto (s.host.pc + 1) (takeTurn s))) := by
  rw [step_of_hostRuns s .reset runs, execStmt]

theorem resetCore_buf_getElem (s : State) (k : Fin 64) : (resetCore s).buf[k.val] = 0x00 := by
  rw [resetCore_buf, Vector.getElem_replicate]

/-- Settles O41: a RESET step answers the reset core, and each register there is the one `resetCore` gives. -/
theorem resetRestoresEveryRegister : Obligations.ResetRestoresEveryRegister := by
  intro s runs
  refine ⟨_, step_of_hostRuns_reset s runs, ?_⟩
  exact ⟨resetCore_h _, resetCore_len _, resetCore_bufcnt _, resetCore_buf_getElem _, resetCore_done _,
    resetCore_err _, resetCore_busy _, resetCore_pending _, resetCore_endian _, resetCore_dataIn _⟩

end Sys2Proof.Proofs
end

section
/-! PROOFS. Encoder and decoder against each other (30_encoding.md R50 to R54), and words written out from the map. -/

namespace Sys2Proof.Proofs
open Sys2Proof.Machine

/-- Settles O4: the round trip from a command is `decode_encode`, and from a word `encode_of_decode`. -/
theorem decodeAndEncodeAgree : Obligations.DecodeAndEncodeAgree :=
  ⟨decode_encode, fun v i decodes => ⟨decode_wellFormed v i decodes, encode_of_decode v i decodes⟩⟩

/-- Settles O1: every word is written out, so the decoder is evaluated. -/
theorem opcodeMapWordsDecode : Obligations.OpcodeMapWordsDecode :=
  ⟨rfl, rfl, rfl, rfl, rfl, rfl, rfl, rfl, rfl, rfl, rfl, rfl⟩

end Sys2Proof.Proofs
end

section
/-! PROOFS. The two lane orders (20_memory.md R39 to R43): a word and its lane bytes determine each other. -/

namespace Sys2Proof.Proofs
open Sys2Proof.Machine

theorem laneBytes_big (v : Word) : laneBytes v .big = bytesBe32 v := rfl

/-- Little-endian lanes are big-endian lanes in the other direction. -/
theorem laneBytes_little (v : Word) : laneBytes v .little = (bytesBe32 v).reverse := by
  rw [← bytesBe32_bswap32, bswap32, bytesBe32_be32]
  rfl

theorem laneWord_little (b : Vector Byte 4) : laneWord b .little = be32 b.reverse := by
  refine congrArg be32 (Vector.ext fun k hk => ?_)
  rw [Vector.getElem_reverse]
  interval_cases k <;> rfl

@[simp] theorem laneWord_laneBytes (v : Word) (e : LaneOrder) : laneWord (laneBytes v e) e = v := by
  cases e with
  | big => rw [laneBytes_big, laneWord, be32_bytesBe32]
  | little => rw [laneBytes_little, laneWord_little, Vector.reverse_reverse, be32_bytesBe32]

@[simp] theorem laneBytes_laneWord (b : Vector Byte 4) (e : LaneOrder) : laneBytes (laneWord b e) e = b := by
  cases e with
  | big => rw [laneBytes_big, laneWord, bytesBe32_be32]
  | little => rw [laneBytes_little, laneWord_little, bytesBe32_be32, Vector.reverse_reverse]

theorem laneWord_little_eq_bswap32 (b : Vector Byte 4) : laneWord b .little = bswap32 (be32 b) := by
  rw [laneWord_little, bswap32_eq_be32_reverse, bytesBe32_be32]

/-- Settles O8: the byte lists are the definitions, and each order is undone by itself. -/
theorem laneOrdersRoundTrip : Obligations.LaneOrdersRoundTrip := fun v e b =>
  ⟨rfl, rfl, rfl, rfl, laneWord_little_eq_bswap32 b, laneWord_laneBytes v e, laneBytes_laneWord b e⟩

end Sys2Proof.Proofs
end

section
/-! PROOFS. What one step does to the registers of R18, said once for the host and once for the engine, and who writes
each of them (10_state.md §1). -/

namespace Sys2Proof.Proofs
open Sys2Proof.Machine

/-! ### The host's step -/

/-- The state a host statement runs on: the host past the statement, and a turn used where one was contended. -/
def pastStatement (s : State) : State := hostGoto (s.host.pc + 1) (takeTurn s)

theorem step_eq_execStmt (s : State) (st : HostStmt) (runs : s.hostRuns st) :
    step s = execStmt st (pastStatement s) := step_of_hostRuns s st runs

/-- Two states that agree in every state of R18. -/
structure SameCore (s t : State) : Prop where
  h : t.h = s.h
  buf : t.buf = s.buf
  bufcnt : t.bufcnt = s.bufcnt
  len : t.len = s.len
  done : t.done = s.done
  err : t.err = s.err
  busy : t.busy = s.busy
  pending : t.pending = s.pending
  endian : t.endian = s.endian
  dataIn : t.dataIn = s.dataIn

theorem SameCore.trans {s t u : State} (first : SameCore s t) (second : SameCore t u) : SameCore s u :=
  ⟨second.h.trans first.h, second.buf.trans first.buf, second.bufcnt.trans first.bufcnt, second.len.trans first.len,
    second.done.trans first.done, second.err.trans first.err, second.busy.trans first.busy,
    second.pending.trans first.pending, second.endian.trans first.endian, second.dataIn.trans first.dataIn⟩

theorem sameCore_takeTurn (s : State) : SameCore s (takeTurn s) :=
  ⟨rfl, rfl, rfl, rfl, rfl, rfl, rfl, rfl, rfl, rfl⟩

theorem sameCore_hostGoto (k : Nat) (s : State) : SameCore s (hostGoto k s) :=
  ⟨rfl, rfl, rfl, rfl, rfl, rfl, rfl, rfl, rfl, rfl⟩

theorem sameCore_hostRecord (var : Nat) (v : Word) (s : State) : SameCore s (hostRecord var v s) :=
  ⟨rfl, rfl, rfl, rfl, rfl, rfl, rfl, rfl, rfl, rfl⟩

theorem sameCore_countDraws (k : Nat) (s : State) : SameCore s (countDraws k s) :=
  ⟨rfl, rfl, rfl, rfl, rfl, rfl, rfl, rfl, rfl, rfl⟩

theorem sameCore_pastStatement (s : State) : SameCore s (pastStatement s) :=
  (sameCore_takeTurn s).trans (sameCore_hostGoto _ _)

/-- What the host's statement `st` makes of `s`. -/
inductive HostEffect (s : State) (st : HostStmt) : State → Prop where
  /-- a write that records an error (R95) -/
  | error (r : Reg) (v : Word) (c : ErrorCode) : st = .write r v → HostEffect s st (raiseError c (pastStatement s))
  /-- a write that takes effect, which none does while BUSY = 1 (R85, R100) -/
  | write (r : Reg) (v : Word) (t : State) : s.busy = false → st = .write r v → Writes r v (pastStatement s) t →
      HostEffect s st t
  /-- an ignored write, a read or a BNZ -/
  | quiet (t : State) : SameCore s t → HostEffect s st t
  /-- RESET (R108) -/
  | reset : st = .reset → HostEffect s st (resetCore (pastStatement s))

theorem hostEffect_of_step (s t : State) (st : HostStmt) (runs : s.hostRuns st) (stepped : step s = .next t) :
    HostEffect s st t := by
  have same := sameCore_pastStatement s
  rw [step_eq_execStmt s st runs] at stepped
  rcases execStmt_cases st _ t stepped with ⟨r, v, written, answers⟩ | ⟨rfl, -⟩ | ⟨off, var, v, k, -, rfl⟩ |
    ⟨var, mask, label, -, rfl | ⟨k, rfl⟩⟩ | ⟨reset, rfl⟩
  · obtain ⟨u, answers_u, effect⟩ := writeReg_cases r v (pastStatement s)
    obtain rfl : u = t := by simpa [answers_u] using answers
    rcases effect with ⟨c, rfl⟩ | rfl | ⟨idle, writes⟩
    · exact .error r v c written
    · exact .quiet _ same
    · exact .write r v u idle written writes
  · exact .quiet _ same
  · exact .quiet _ ((same.trans (sameCore_countDraws k _)).trans (sameCore_hostRecord var v _))
  · exact .quiet _ same
  · exact .quiet _ (same.trans (sameCore_hostGoto k _))
  · exact .reset reset

/-- All that a step can do: a completion, a host statement, or nothing where the run has ended. -/
theorem step_effects (s t : State) (stepped : step s = .next t) :
    (mover s = some .engine ∧ t = completeCommand (takeTurn s)) ∨
    (∃ st, s.hostRuns st ∧ HostEffect s st t) ∨ (mover s = none ∧ t = s) := by
  rcases step_cases s t stepped with engine | ⟨st, runs, -⟩ | still
  · exact .inl engine
  · exact .inr (.inl ⟨st, runs, hostEffect_of_step s t st runs stepped⟩)
  · exact .inr (.inr still)

/-! ### What ABSORB's and FINAL's completions leave (R89, R90) -/

@[simp] theorem completeAbsorb_done (bs : List Byte) (s : State) : (completeAbsorb bs s).done = s.done := by
  rw [completeAbsorb_eq]

@[simp] theorem completeAbsorb_len (bs : List Byte) (s : State) :
    (completeAbsorb bs s).len = s.len + BitVec.ofNat 64 (8 * bs.length) := by
  rw [completeAbsorb_eq]

@[simp] theorem completeAbsorb_bufcnt (bs : List Byte) (s : State) :
    (completeAbsorb bs s).bufcnt.val = (s.bufcnt.val + bs.length) % 64 := by
  rw [completeAbsorb_eq, foldl_absorbByte_bufcnt]

@[simp] theorem completeFinal_len (s : State) : (completeFinal s).len = s.len := by
  rw [completeFinal_eq]

@[simp] theorem completeFinal_bufcnt (s : State) : (completeFinal s).bufcnt = 0 := rfl

@[simp] theorem completeFinal_done (s : State) : (completeFinal s).done = true := rfl

/-! ### The writers of each register (R18) -/

/-- What the completion of a latched command writes. -/
theorem written_of_completeCommand (s : State) :
    ((completeCommand s).h ≠ s.h → ∃ p, s.pending = some p) ∧
    ((completeCommand s).buf ≠ s.buf → (∃ bs, s.pending = some (.absorb bs)) ∨ s.pending = some .final) ∧
    ((completeCommand s).bufcnt ≠ s.bufcnt →
      s.pending = some .init ∨ (∃ bs, s.pending = some (.absorb bs)) ∨ s.pending = some .final) ∧
    ((completeCommand s).len ≠ s.len → s.pending = some .init ∨ ∃ bs, s.pending = some (.absorb bs)) ∧
    ((completeCommand s).done ≠ s.done → s.pending = some .init ∨ s.pending = some .final) := by
  cases latched : s.pending with
  | none => simp [completeCommand_of_none s latched]
  | some p =>
    rw [completeCommand_of_pending s p latched]
    cases p <;> simp [performCommand]

/-- Settles O51: each step's one effect is matched with the column "written by"; what it does not write is equal. -/
theorem eachRegisterHasItsWriters : Obligations.EachRegisterHasItsWriters := by
  intro s t stepped
  have kept {α : Sort _} {x : α} {P : Prop} (changed : x ≠ x) : P := absurd rfl changed
  rcases step_effects s t stepped with ⟨engine, rfl⟩ | ⟨st, runs, effect⟩ | ⟨-, rfl⟩
  · obtain ⟨h, buf, bufcnt, len, done⟩ := written_of_completeCommand (takeTurn s)
    refine ⟨fun ne => .inl ?_, fun ne => ?_, fun ne => ?_, fun ne => ?_, fun ne => ?_, fun ne => ?_,
      fun _ => .inr (.inl engine), fun ne => ?_, fun ne => ?_⟩
    · obtain ⟨p, latched⟩ := h ne
      exact ⟨p, engine, latched⟩
    · rcases buf ne with ⟨bs, latched⟩ | latched
      · exact .inl ⟨bs, engine, latched⟩
      · exact .inr (.inl ⟨engine, latched⟩)
    · rcases bufcnt ne with latched | ⟨bs, latched⟩ | latched
      · exact .inl ⟨engine, latched⟩
      · exact .inr (.inl ⟨bs, engine, latched⟩)
      · exact .inr (.inr (.inl ⟨engine, latched⟩))
    · rcases len ne with latched | ⟨bs, latched⟩
      · exact .inl ⟨engine, latched⟩
      · exact .inr (.inl ⟨bs, engine, latched⟩)
    · rcases done ne with latched | latched
      · exact .inl ⟨engine, latched⟩
      · exact .inr (.inl ⟨engine, latched⟩)
    · rw [completeCommand_err] at ne
      have latched : s.pending = some .init := by
        by_contra other
        exact ne (if_neg other)
      exact .inr (.inl ⟨engine, latched⟩)
    · exact absurd (completeCommand_endian (takeTurn s)) ne
    · exact absurd (completeCommand_dataIn (takeTurn s)) ne
  · cases effect with
    | error r v c written =>
      exact ⟨kept, kept, kept, kept, kept, fun _ => .inl ⟨r, v, written ▸ runs⟩, fun ne => ne.elim kept kept, kept,
        kept⟩
    | quiet t same =>
      exact ⟨absurd same.h, absurd same.buf, absurd same.bufcnt, absurd same.len, absurd same.done, absurd same.err,
        fun ne => ne.elim (absurd same.busy) (absurd same.pending), absurd same.endian, absurd same.dataIn⟩
    | reset reset =>
      have by_reset : s.hostRuns .reset := reset ▸ runs
      exact ⟨fun _ => .inr by_reset, fun _ => .inr (.inr (.inr by_reset)), fun _ => .inr (.inr (.inr by_reset)),
        fun _ => .inr (.inr by_reset), fun _ => .inr (.inr by_reset), fun _ => .inr (.inr by_reset),
        fun _ => .inr (.inr by_reset), fun _ => .inr by_reset, fun _ => .inr by_reset⟩
    | write r v t idle written writes =>
      subst written
      rcases writes with ⟨rfl, i, p, -, -, rfl⟩ | ⟨rfl, rfl⟩ | ⟨rfl, rfl⟩ | ⟨j, rfl, rfl⟩
      · exact ⟨kept, kept, kept, kept, kept, kept, fun _ => .inl ⟨idle, v, runs⟩, kept, kept⟩
      · exact ⟨kept, kept, kept, kept, kept, kept, fun ne => ne.elim kept kept, fun _ => .inl ⟨idle, v, runs⟩, kept⟩
      · exact ⟨kept, kept, kept, kept, kept, kept, fun ne => ne.elim kept kept, kept, fun _ => .inl ⟨idle, v, runs⟩⟩
      · exact ⟨kept, fun _ => .inr (.inr (.inl ⟨idle, j, v, runs⟩)), kept, kept, kept, kept,
          fun ne => ne.elim kept kept, kept, kept⟩
  · exact ⟨kept, kept, kept, kept, kept, kept, fun ne => ne.elim kept kept, kept, kept⟩

end Sys2Proof.Proofs
end

section
/-! PROOFS. The invariant (10_state.md §4, §5): it holds after reset, and every issue, completion and other step keeps
it. -/

namespace Sys2Proof.Proofs
open Sys2Proof.Machine

/-- Settles O52: BUSY, LEN, BUFCNT and DONE are 0 after reset and no command is latched. -/
theorem resetMeetsTheInvariant : Obligations.ResetMeetsTheInvariant where
  busy_iff_pending := rfl
  pending_fits := rfl
  len_whole_bytes := rfl
  bufcnt_of_len _ := rfl
  bufcnt_when_done _ := rfl

theorem inv_of_sameCore (s t : State) (inv : s.Inv) (same : SameCore s t) : t.Inv :=
  inv_of_eq s t inv same.busy same.pending same.len same.done same.bufcnt

/-- What a command's issue has checked is what the invariant asks of it while it is latched (R86). -/
theorem pendingFits_accept (i : Instr) (p : Pending) (s : State) (wf : i.wellFormed = true) (accepts : Accepts i p s) :
    (accept p s).pendingFits = true := by
  cases i with
  | nop => cases accepts
  | init =>
    cases accepts
    rfl
  | absorb n =>
    obtain ⟨rfl, -, not_done, fits⟩ := accepts
    obtain ⟨low, high⟩ := (wellFormed_absorb_iff n).1 wf
    simp [State.pendingFits, absorbBytes_length _ _ n high, not_done, low, high, fits]
  | final =>
    obtain ⟨rfl, -, not_done⟩ := accepts
    simp [State.pendingFits, not_done]
  | block =>
    obtain ⟨rfl, -, not_done, empty⟩ := accepts
    simp [State.pendingFits, not_done, empty]

theorem inv_accept (i : Instr) (p : Pending) (s : State) (inv : s.Inv) (wf : i.wellFormed = true)
    (accepts : Accepts i p s) : (accept p s).Inv where
  busy_iff_pending := rfl
  pending_fits := pendingFits_accept i p s wf accepts
  len_whole_bytes := inv.len_whole_bytes
  bufcnt_of_len := inv.bufcnt_of_len
  bufcnt_when_done := inv.bufcnt_when_done

/-- With no command latched the invariant speaks of LEN, DONE and BUFCNT only. -/
theorem inv_finish (s : State) (len : s.len.toNat % 8 = 0)
    (opened : s.done = false → s.bufcnt.val = messageBytes s.len % 64) (closed : s.done = true → s.bufcnt = 0) :
    (finish s).Inv := ⟨rfl, rfl, len, opened, closed⟩

/-- A pending ABSORB stands in an open message and its bytes fit the length limit. -/
theorem pendingFits_absorb_iff (bs : List Byte) (s : State) (latched : s.pending = some (.absorb bs)) :
    s.pendingFits = true ↔
      s.done = false ∧ 1 ≤ bs.length ∧ bs.length ≤ 4 ∧ messageBytes s.len + bs.length ≤ maxMsgBytes := by
  simp [State.pendingFits, latched, and_assoc]

/-- ABSORB moves BUFCNT and LEN on together. -/
theorem inv_completeAbsorb (bs : List Byte) (s : State) (inv : s.Inv) (latched : s.pending = some (.absorb bs)) :
    (finish (completeAbsorb bs s)).Inv := by
  obtain ⟨not_done, -, -, fits⟩ := (pendingFits_absorb_iff bs s latched).1 inv.pending_fits
  have whole := inv.len_whole_bytes
  have len : (completeAbsorb bs s).len.toNat = s.len.toNat + 8 * bs.length := by
    rw [completeAbsorb_len, length_add _ _ whole fits]
  refine inv_finish _ (by omega) (fun _ => ?_) (fun closed => ?_)
  · have before : s.bufcnt.val = s.len.toNat / 8 % 64 := inv.bufcnt_of_len not_done
    rw [completeAbsorb_bufcnt, messageBytes, len]
    omega
  · simp [not_done] at closed

theorem inv_completeCommand (s : State) (inv : s.Inv) : (completeCommand s).Inv := by
  cases latched : s.pending with
  | none =>
    rw [completeCommand_of_none s latched]
    exact inv_finish s inv.len_whole_bytes inv.bufcnt_of_len inv.bufcnt_when_done
  | some p =>
    rw [completeCommand_of_pending s p latched]
    cases p with
    | init => exact inv_finish (completeInit s) rfl (fun _ => by simp [messageBytes]) (fun _ => rfl)
    | absorb bs => exact inv_completeAbsorb bs s inv latched
    | final => exact inv_finish (completeFinal s) (by simpa using inv.len_whole_bytes) nofun (fun _ => rfl)
    | block => exact inv_finish _ inv.len_whole_bytes inv.bufcnt_of_len inv.bufcnt_when_done

/-- A register write that takes effect accepts a well-formed command or leaves what the invariant speaks of. -/
theorem inv_of_writes (r : Reg) (v : Word) (s t : State) (inv : s.Inv) (writes : Writes r v s t) : t.Inv := by
  rcases writes with ⟨-, i, p, decoded, accepts, rfl⟩ | ⟨-, rfl⟩ | ⟨-, rfl⟩ | ⟨j, -, rfl⟩
  · exact inv_accept i p s inv (decode_wellFormed v i decoded) accepts
  · exact inv_of_eq s _ inv rfl rfl rfl rfl rfl
  · exact inv_of_eq s _ inv rfl rfl rfl rfl rfl
  · exact inv_of_eq s _ inv rfl rfl rfl rfl rfl

/-- Settles O53: completions, register writes and resets keep the invariant, and the rest leaves what it speaks of. -/
theorem everyStepKeepsTheInvariant : Obligations.EveryStepKeepsTheInvariant := by
  intro s t inv stepped
  have turn_taken : (takeTurn s).Inv := inv_of_eq s _ inv rfl rfl rfl rfl rfl
  have past : (pastStatement s).Inv := inv_of_eq s _ inv rfl rfl rfl rfl rfl
  rcases step_effects s t stepped with ⟨-, rfl⟩ | ⟨st, -, effect⟩ | ⟨-, rfl⟩
  · exact inv_completeCommand _ turn_taken
  · cases effect with
    | error r v c => exact inv_of_eq _ _ past rfl rfl rfl rfl rfl
    | write r v t idle written writes => exact inv_of_writes r v _ t past writes
    | quiet t same => exact inv_of_sameCore s t inv same
    | reset => exact inv_of_eq State.reset _ resetMeetsTheInvariant rfl rfl rfl rfl rfl
  · exact inv

end Sys2Proof.Proofs
end

section
/-! PROOFS. The completion (44_commands.md R92): what it reads and leaves alone, and that it does not depend on when it
runs. -/

namespace Sys2Proof.Proofs
open Sys2Proof.Machine

/-! ### What bytes neither read nor write (R89) -/

/-- `u` with the registers that a message byte works on, H, BUF and BUFCNT, taken from `s`. -/
def withIntakeOf (s u : State) : State := { u with h := s.h, buf := s.buf, bufcnt := s.bufcnt }

theorem absorbByte_withIntakeOf (s u : State) (b : Byte) :
    absorbByte (withIntakeOf s u) b = withIntakeOf (absorbByte s b) u := by
  show (if s.bufcnt = 63 then _ else _) = _
  unfold absorbByte
  split <;> rfl

theorem foldl_absorbByte_withIntakeOf (bs : List Byte) (s u : State) :
    bs.foldl absorbByte (withIntakeOf s u) = withIntakeOf (bs.foldl absorbByte s) u := by
  induction bs generalizing s with
  | nil => rfl
  | cons b bs ih => rw [List.foldl_cons, List.foldl_cons, absorbByte_withIntakeOf, ih]

/-! ### What a completion neither reads nor writes -/

/-- `s` with all of `u` but what a completion works on: H, BUF, BUFCNT, LEN, DONE, BUSY and PENDING. -/
def withSidesOf (s u : State) : State :=
  { s with err := u.err, endian := u.endian, dataIn := u.dataIn, host := u.host, turns := u.turns,
           issued := u.issued, waited := u.waited, draws := u.draws }

/-- A completion carries over what it does not work on; only INIT's clears ERR. -/
theorem completeCommand_withSidesOf (s u : State) : completeCommand (withSidesOf s u) =
    { withSidesOf (completeCommand s) u with err := if s.pending = some .init then .none else u.err } := by
  have pending : (withSidesOf s u).pending = s.pending := rfl
  cases latched : s.pending with
  | none =>
    rw [completeCommand_of_none _ latched, completeCommand_of_none _ (pending.trans latched)]
    rfl
  | some p =>
    rw [completeCommand_of_pending _ p latched, completeCommand_of_pending _ p (pending.trans latched)]
    cases p with
    | init => rfl
    | absorb bs =>
      have bytes : bs.foldl absorbByte (withSidesOf s u) = withIntakeOf (bs.foldl absorbByte s) (withSidesOf s u) :=
        foldl_absorbByte_withIntakeOf bs s (withSidesOf s u)
      simp only [performCommand]
      rw [completeAbsorb_eq bs s, completeAbsorb, bytes]
      rfl
    | final =>
      simp only [performCommand, completeFinal_eq]
      rfl
    | block => rfl

/-- Settles O46: ENDIAN, DATA_IN, the host, `turns` and `draws` are among what a completion carries over. -/
theorem completionIgnoresTheHostSide : Obligations.CompletionIgnoresTheHostSide := by
  intro s e d a ts k
  have carried :=
    completeCommand_withSidesOf s { s with endian := e, dataIn := d, host := a, turns := ts, draws := k }
  rw [← completeCommand_err s] at carried
  refine carried.trans ?_
  rw [completeCommand_eq s]
  rfl

/-- Settles O45: with BUSY = 1 the host's step leaves all that the completion works on. -/
theorem completionDoesNotDependOnWhenItRuns : Obligations.CompletionDoesNotDependOnWhenItRuns := by
  intro s t st busy runs no_reset stepped
  obtain ⟨sides, endian, dataIn⟩ : t = withSidesOf s t ∧ t.endian = s.endian ∧ t.dataIn = s.dataIn := by
    cases hostEffect_of_step s t st runs stepped with
    | error r v c => exact ⟨rfl, rfl, rfl⟩
    | write r v t idle => simp [busy] at idle
    | quiet t same =>
      refine ⟨?_, same.endian, same.dataIn⟩
      rw [withSidesOf, ← same.h, ← same.buf, ← same.bufcnt, ← same.len, ← same.done, ← same.busy, ← same.pending]
    | reset reset => exact absurd reset no_reset
  have completed := (congrArg completeCommand sides).trans (completeCommand_withSidesOf s t)
  rw [completed]
  refine ⟨rfl, rfl, rfl, rfl, rfl, ?_, ?_, rfl, rfl, fun init => ?_⟩
  · exact endian.trans (completeCommand_endian s).symm
  · exact dataIn.trans (completeCommand_dataIn s).symm
  · rw [completeCommand_err]
    simp [init]

/-! ### The bytes behind BUFCNT (R24) -/

/-- States that a message cannot tell apart: the same H and BUFCNT, and the same bytes below BUFCNT. -/
structure SameMessage (s t : State) : Prop where
  h : t.h = s.h
  bufcnt : t.bufcnt = s.bufcnt
  buffered : ∀ k : Fin 64, k.val < s.bufcnt.val → t.buf[k.val] = s.buf[k.val]

/-- The buffered bytes and the new one at BUFCNT agree; where it fills the block they are all there is. -/
theorem sameMessage_absorbByte (s t : State) (b : Byte) (same : SameMessage s t) :
    SameMessage (absorbByte s b) (absorbByte t b) := by
  have upto (k : Nat) (hk : k < 64) (le : k ≤ s.bufcnt.val) :
      (t.buf.set s.bufcnt.val b)[k] = (s.buf.set s.bufcnt.val b)[k] := by
    rw [Vector.getElem_set, Vector.getElem_set]
    split
    · rfl
    · exact same.buffered ⟨k, hk⟩ (by dsimp only; omega)
  refine ⟨?_, ?_, fun k below => ?_⟩
  · simp only [absorbByte_h, same.bufcnt, same.h]
    split
    · exact congrArg (foldBlock s.h) (Vector.ext fun k hk => upto k hk (by omega))
    · rfl
  · rw [absorbByte_bufcnt, absorbByte_bufcnt, same.bufcnt]
  · simp only [absorbByte_buf, same.bufcnt]
    apply upto k k.isLt
    rw [absorbByte_bufcnt, Fin.val_add] at below
    simp at below
    omega

theorem sameMessage_foldl_absorbByte (bs : List Byte) (s t : State) (same : SameMessage s t) :
    SameMessage (bs.foldl absorbByte s) (bs.foldl absorbByte t) := by
  induction bs generalizing s t with
  | nil => exact same
  | cons b bs ih => exact ih _ _ (sameMessage_absorbByte s t b same)

/-- FINAL pads with the bytes below BUFCNT only. -/
theorem padTail_congr (A B : Block) (c : Fin 64) (len : BitVec 64)
    (agree : ∀ k : Fin 64, k.val < c.val → B[k.val] = A[k.val]) : padTail B c len = padTail A c len := by
  have buffered : B.toList.take c.val = A.toList.take c.val := by
    refine List.ext_getElem (by simp) fun k hB _ => ?_
    simp only [List.length_take, Vector.length_toList] at hB
    simpa using agree ⟨k, by omega⟩ (by dsimp only; omega)
  rw [padTail, padTail, buffered]

/-- FINAL always has a block to load, so BUF as it was does not show. -/
theorem blocks_padTail_ne_nil (B : Block) (c : Fin 64) (len : BitVec 64) : blocks (padTail B c len) ≠ [] := by
  rw [← List.length_pos_iff, blocks_length, padTail_length]
  split <;> decide

/-- Settles O47: FINAL reads the bytes below BUFCNT only, and ABSORB keeps two such states alike. -/
theorem leftoverBytesDoNotMatter : Obligations.LeftoverBytesDoNotMatter := by
  intro s B agree
  refine ⟨fun latched => ?_, fun bs latched => ?_⟩
  · have other : { s with buf := B }.pending = some .final := latched
    rw [completeCommand_of_pending s _ latched, completeCommand_of_pending _ _ other]
    simp only [performCommand, completeFinal_eq, padTail_congr s.buf B s.bufcnt s.len agree,
      List.getLastD_eq_getLast?, List.getLast?_eq_some_getLast (blocks_padTail_ne_nil s.buf s.bufcnt s.len)]
    rfl
  · have other : { s with buf := B }.pending = some (.absorb bs) := latched
    rw [completeCommand_of_pending s _ latched, completeCommand_of_pending _ _ other]
    obtain ⟨h, bufcnt, buffered⟩ := sameMessage_foldl_absorbByte bs s { s with buf := B } ⟨rfl, rfl, agree⟩
    exact ⟨h, bufcnt, buffered⟩

end Sys2Proof.Proofs
end

section
/-! PROOFS. Runs of both agents (20_memory.md R46, 44_commands.md R92, 60_exceptions.md §4): whose turn it is, what each
kind of step does, and that a pending command completes. -/

namespace Sys2Proof.Proofs
open Sys2Proof.Machine

/-! ### Whose turn it is (R46, R114) -/

theorem mover_of_turn (s : State) (a : Agent) (rest : List Agent) (both : contended s = true)
    (listed : s.turns = a :: rest) : mover s = some a := by
  rw [mover, if_pos both, listed]

theorem mover_of_no_turns (s : State) (both : contended s = true) (listed : s.turns = []) :
    mover s = if s.waited < Config.latency s.issued then some .host else some .engine := by
  rw [mover, if_pos both, listed]

theorem busy_of_engine (s : State) (engine : mover s = some .engine) : s.busy = true := by
  by_contra idle
  simp only [Bool.not_eq_true] at idle
  cases line : (hostLine s).isSome <;> simp [mover, contended, idle, line] at engine

theorem engine_of_host_ended (s : State) (busy : s.busy = true) (line : hostLine s = none) :
    mover s = some .engine := by
  simp [mover, contended, busy, line]

theorem contended_of_hostRuns (s : State) (st : HostStmt) (runs : s.hostRuns st) : contended s = s.busy := by
  obtain ⟨l, line⟩ := hostLine_of_mover s runs.1
  simp [contended, line]

theorem mover_none_iff_ended (s : State) : mover s = none ↔ s.ended = true := by
  rw [State.ended]
  cases busy : s.busy with
  | false => cases line : hostLine s <;> simp [mover, contended, busy, line]
  | true =>
    simp only [Bool.not_true, Bool.and_false, Bool.false_eq_true, iff_false]
    cases line : hostLine s with
    | none => simp [engine_of_host_ended s busy line]
    | some l =>
      have both : contended s = true := by simp [contended, busy, line]
      cases listed : s.turns with
      | cons a rest => simp [mover_of_turn s a rest both listed]
      | nil => rw [mover_of_no_turns s both listed]; split <;> simp

/-- Settles O44: with a turn listed it decides, and with neither agent able to move the step stands still. -/
theorem eitherAgentMayMoveFirst : Obligations.EitherAgentMayMoveFirst := by
  refine fun s => ⟨fun busy line a rest => ?_, mover_none_iff_ended s, fun ended => ?_⟩
  · have both : contended { s with turns := a :: rest } = true := Bool.and_eq_true_iff.2 ⟨busy, line⟩
    exact mover_of_turn _ a rest both rfl
  · rw [step, (mover_none_iff_ended s).2 ended]

/-! ### The engine's step (R92) -/

theorem eq_of_engine (s t : State) (engine : mover s = some .engine) (stepped : step s = .next t) :
    t = completeCommand (takeTurn s) :=
  Host.Outcome.next.inj (stepped.symm.trans (step_of_engine s engine))

/-- Settles O43: the engine's step is `completeCommand`, whose fields the model's own lemmas give. -/
theorem completionStepFinishesThePendingCommand : Obligations.CompletionStepFinishesThePendingCommand := by
  refine fun s => ⟨busy_of_engine s, engine_of_host_ended s, step_of_engine s, fun p performs => ?_⟩
  obtain ⟨engine, latched⟩ := performs
  have err : (completeCommand (takeTurn s)).err = if p = .init then .none else s.err := by
    simp [latched]
  exact ⟨completeCommand (takeTurn s), step_of_engine s engine, completeCommand_of_pending (takeTurn s) p latched, rfl,
    completeCommand_busy _, completeCommand_pending _, err, completeCommand_host _, completeCommand_endian _,
    completeCommand_dataIn _⟩

/-! ### Errors (60_exceptions.md R95, R103, R104) -/

theorem writes_err (r : Reg) (v : Word) (s t : State) (writes : Writes r v s t) : t.err = s.err := by
  rcases writes with ⟨-, i, p, -, -, rfl⟩ | ⟨-, rfl⟩ | ⟨-, rfl⟩ | ⟨j, -, rfl⟩ <;> rfl

/-- Settles O49: INIT's completion and a reset clear ERR; no other step writes over an error that stands. -/
theorem firstErrorIsKeptUntilInitOrReset : Obligations.FirstErrorIsKeptUntilInitOrReset := by
  intro s t stepped
  refine ⟨?_, fun stands other => ?_⟩
  · rintro (⟨engine, latched⟩ | runs)
    · obtain rfl := eq_of_engine s t engine stepped
      simp [latched]
    · obtain rfl := Host.Outcome.next.inj (stepped.symm.trans (step_of_hostRuns_reset s runs))
      rfl
  · rcases step_effects s t stepped with ⟨engine, rfl⟩ | ⟨st, runs, effect⟩ | ⟨-, rfl⟩
    · have not_init : s.pending ≠ some .init := fun latched => other (.inl ⟨engine, latched⟩)
      simp [not_init]
    · cases effect with
      | error r v c => rw [raiseError_of_err c (pastStatement s) stands]; rfl
      | write r v t idle written writes => exact writes_err r v (pastStatement s) t writes
      | quiet t same => exact same.err
      | reset reset => exact absurd (.inr (reset ▸ runs)) other
    · rfl

/-- Settles O50: of all that a host statement can do, only a raised error changes ERR, and it changes nothing else. -/
theorem errorsArePrecise : Obligations.ErrorsArePrecise := by
  intro s t st runs no_reset stepped changed
  cases hostEffect_of_step s t st runs stepped with
  | error r v c =>
    refine ⟨?_, rfl⟩
    by_contra stands
    apply changed
    rw [raiseError_of_err c (pastStatement s) stands]
    rfl
  | write r v t idle written writes => exact absurd (writes_err r v (pastStatement s) t writes) changed
  | quiet t same => exact absurd same.err changed
  | reset reset => exact absurd reset no_reset

/-! ### A pending command completes (R114) -/

/-- The steps a pending command may still wait: the turns listed, LATENCY beyond them, and the completion itself. -/
def waitBound (s : State) : Nat := s.turns.length + (Config.latency s.issued - s.waited) + 1

/-- While a command stays pending the host's statements leave the model's counts of its wait. -/
theorem execStmt_keeps_wait (st : HostStmt) (s t : State) (busy : s.busy = true) (run : execStmt st s = .next t)
    (still : t.busy = true) : t.turns = s.turns ∧ t.issued = s.issued ∧ t.waited = s.waited := by
  rcases execStmt_cases st s t run with ⟨r, v, -, answers⟩ | ⟨rfl, -⟩ | ⟨off, var, v, k, -, rfl⟩ |
    ⟨var, mask, label, -, rfl | ⟨k, rfl⟩⟩ | ⟨-, rfl⟩
  · obtain ⟨u, answers_u, effect⟩ := writeReg_cases r v s
    obtain rfl := Host.Outcome.next.inj (answers_u.symm.trans answers)
    rcases effect with ⟨c, rfl⟩ | rfl | ⟨idle, -⟩
    · exact ⟨rfl, rfl, rfl⟩
    · exact ⟨rfl, rfl, rfl⟩
    · simp [busy] at idle
  · exact ⟨rfl, rfl, rfl⟩
  · exact ⟨rfl, rfl, rfl⟩
  · exact ⟨rfl, rfl, rfl⟩
  · exact ⟨rfl, rfl, rfl⟩
  · simp at still

/-- Where the host moves although a command is pending, a turn was listed or LATENCY is not over. -/
theorem waits_of_host (s : State) (both : contended s = true) (host : mover s = some .host) :
    0 < s.turns.length ∨ s.waited < Config.latency s.issued := by
  cases listed : s.turns with
  | cons a rest => simp
  | nil =>
    rw [mover_of_no_turns s both listed] at host
    split at host
    · exact .inr ‹_›
    · cases host

/-- Every step that leaves the command pending shortens the wait. -/
theorem waitBound_lt (s t : State) (busy : s.busy = true) (stepped : step s = .next t) (still : t.busy = true) :
    waitBound t < waitBound s := by
  rcases step_cases s t stepped with ⟨-, rfl⟩ | ⟨st, runs, run⟩ | ⟨stands, -⟩
  · simp at still
  · have both : contended s = true := (contended_of_hostRuns s st runs).trans busy
    obtain ⟨turns, issued, waited⟩ := execStmt_keeps_wait st (pastStatement s) t busy run still
    rw [pastStatement, takeTurn_contended s both] at turns issued waited
    have waits := waits_of_host s both runs.1
    rw [waitBound, waitBound, turns, issued, waited, hostGoto_turns, hostGoto_issued, hostGoto_waited,
      List.length_tail]
    dsimp only
    omega
  · have ended := (mover_none_iff_ended s).1 stands
    simp [State.ended, busy] at ended

/-- A run long enough for the wait passes a state with BUSY = 0, where it meets no stop. -/
theorem reaches_idle (n : Nat) (s t : State) (busy : s.busy = true) (enough : waitBound s ≤ n)
    (run : steps n s = .next t) : ∃ (k : Nat) (u : State), k ≤ n ∧ steps k s = .next u ∧ u.busy = false := by
  induction n generalizing s with
  | zero => simp [waitBound] at enough
  | succ n ih =>
    cases stepped : step s with
    | fault f => simp [steps, stepped] at run
    | refused f => simp [steps, stepped] at run
    | next s' =>
      rw [steps_succ s s' n stepped] at run
      cases still : s'.busy with
      | false => exact ⟨1, s', by omega, steps_succ s s' 0 stepped, still⟩
      | true =>
        have shorter := waitBound_lt s s' busy stepped still
        obtain ⟨k, u, le, reached, idle⟩ := ih s' still (by omega) run
        exact ⟨k + 1, u, by omega, (steps_succ s s' k stepped).trans reached, idle⟩

/-- Settles O48: the wait is no longer than the turns listed and the whole of LATENCY. -/
theorem pendingCommandsComplete : Obligations.PendingCommandsComplete := by
  intro s t busy run
  have enough : waitBound s ≤ s.turns.length + Config.latency s.issued + 1 := by
    rw [waitBound]
    omega
  exact reaches_idle _ s t busy enough run

end Sys2Proof.Proofs
end

section
/-! PROOFS. The commands at issue (44_commands.md R86 to R91, 60_exceptions.md R96 to R100): the order of the checks,
what each outcome is, and what ABSORB's completion leaves. -/

namespace Sys2Proof.Proofs
open Sys2Proof.Machine

/-! ### The order of the checks (R86) -/

theorem issueMessage_of_busy (own : Option ErrorCode) (p : Pending) (s : State) (busy : s.busy = true) :
    issueMessage own p s = raiseError .busyViolation s := by
  simp [issueMessage, busy]

theorem issueMessage_of_err (own : Option ErrorCode) (p : Pending) (s : State) (idle : s.busy = false)
    (stands : s.err ≠ .none) : issueMessage own p s = s := by
  simp [issueMessage, idle, stands]

theorem issueMessage_of_done (own : Option ErrorCode) (p : Pending) (s : State) (idle : s.busy = false)
    (no_err : s.err = .none) (done : s.done = true) : issueMessage own p s = { s with err := .sequence } := by
  simp [issueMessage, idle, no_err, done, raiseError]

/-- The command's own check is the last (R97, R98). -/
theorem issueMessage_refuses (c : ErrorCode) (p : Pending) (s : State) (idle : s.busy = false)
    (no_err : s.err = .none) (not_done : s.done = false) :
    issueMessage (some c) p s = { s with err := c } := by
  simp [issueMessage, idle, no_err, not_done, raiseError]

theorem execInit_of_idle (s : State) (idle : s.busy = false) : execInit s = .next (accept .init s) := by
  simp [execInit, idle]

theorem absorbError_of_gt (n : Nat) (s : State) (above : 2 ^ 61 - 1 < s.len.toNat / 8 + n) :
    absorbError n s = some .inputTooLarge := if_pos above

theorem absorbError_of_le (n : Nat) (s : State) (fits : s.len.toNat / 8 + n ≤ 2 ^ 61 - 1) :
    absorbError n s = none := if_neg (Nat.not_lt.2 fits)

theorem blockError_of_empty (s : State) (empty : s.bufcnt = 0) : blockError s = none := if_neg (not_not.2 empty)

theorem blockError_of_partial (s : State) (part : s.bufcnt ≠ 0) : blockError s = some .invalidBlockLength :=
  if_pos part

/-- While BUSY = 1 every command is a BUSY_VIOLATION (R100). -/
theorem exec_of_busy (i : Instr) (s : State) (busy : s.busy = true) :
    exec i s = .next (raiseError .busyViolation s) := by
  cases i with
  | nop => exact execNop_of_busy s busy
  | init => simp [exec, execInit, busy]
  | absorb n => exact congrArg Host.Outcome.next (issueMessage_of_busy _ _ s busy)
  | final => exact congrArg Host.Outcome.next (issueMessage_of_busy _ _ s busy)
  | block => exact congrArg Host.Outcome.next (issueMessage_of_busy _ _ s busy)

/-! ### The outcomes one by one -/

/-- Settles O25: in the terminal error state the check of ERR ends the issue. -/
theorem terminalErrorIgnoresMessageCommands : Obligations.TerminalErrorIgnoresMessageCommands :=
  fun s _ idle stands =>
    have ignored (own : Option ErrorCode) (p : Pending) : Host.Outcome.next (issueMessage own p s) = .next s :=
      congrArg Host.Outcome.next (issueMessage_of_err own p s idle stands)
    ⟨ignored _ _, ignored _ _, ignored _ _⟩

/-- Settles O26: after FINAL the check of DONE ends the issue. -/
theorem messageCommandsAfterFinalAreSequenceErrors : Obligations.MessageCommandsAfterFinalAreSequenceErrors :=
  fun s _ idle no_err done =>
    have refused (own : Option ErrorCode) (p : Pending) :
        Host.Outcome.next (issueMessage own p s) = .next { s with err := .sequence } :=
      congrArg Host.Outcome.next (issueMessage_of_done own p s idle no_err done)
    ⟨refused _ _, refused _ _, refused _ _⟩

/-- Settles O27: with the other checks passed, ABSORB's and BLOCK's own checks decide. -/
theorem lengthAndBlockErrors : Obligations.LengthAndBlockErrors := by
  refine fun s n idle no_err not_done => ⟨fun above => ?_, fun part => ?_⟩
  · rw [exec, execAbsorb, absorbError_of_gt n s above, issueMessage_refuses _ _ s idle no_err not_done]
  · have not_empty : s.bufcnt ≠ 0 := fun empty => part (congrArg Fin.val empty)
    rw [exec, execBlock, blockError_of_partial s not_empty, issueMessage_refuses _ _ s idle no_err not_done]

/-- Settles O18: INIT asks for BUSY = 0 only, and its completion sets every register that it names. -/
theorem initIsAcceptedAndRestarts : Obligations.InitIsAcceptedAndRestarts := by
  refine fun s => ⟨fun idle => ?_, exec_of_busy .init s⟩
  exact ⟨accept .init s, execInit_of_idle s idle, rfl, fun c => rfl⟩

/-- Settles O22: BLOCK's four checks pass, and its completion is one compression. -/
theorem blockCompressesTheBuffer : Obligations.BlockCompressesTheBuffer := by
  intro s idle no_err not_done empty
  refine ⟨accept .block s, ?_, rfl, rfl⟩
  rw [exec, execBlock, blockError_of_empty s empty, issueMessage_accepts .block s idle no_err not_done]

theorem execAbsorb_accepts (n : Nat) (s : State) (idle : s.busy = false) (no_err : s.err = .none)
    (not_done : s.done = false) (fits : s.len.toNat / 8 + n ≤ 2 ^ 61 - 1) :
    exec (.absorb n) s = .next (accept (.absorb (absorbBytes s.dataIn s.endian n)) s) := by
  rw [exec, execAbsorb, absorbError_of_le n s fits, issueMessage_accepts _ s idle no_err not_done]

/-- Settles O19: ABSORB's checks pass, and what it latches are the first n lane bytes. -/
theorem absorbIsAcceptedAndLatches : Obligations.AbsorbIsAcceptedAndLatches := by
  intro n s wf idle no_err not_done fits
  have high := ((wellFormed_absorb_iff n).1 wf).2
  refine ⟨_, execAbsorb_accepts n s idle no_err not_done fits, rfl, _, rfl, absorbBytes_length _ _ n high, ?_⟩
  exact fun k _ below => absorbBytes_getD s.dataIn s.endian n k high below

/-! ### The chain of R86 -/

theorem issue_of_decodes (v : Word) (i : Instr) (s : State) (decoded : decode v = .ok i) : issue v s = exec i s := by
  rw [issue, decoded]

/-- While BUSY = 1 a CMD write is a BUSY_VIOLATION, legal or not (R100). -/
theorem issue_of_busy (v : Word) (s : State) (busy : s.busy = true) :
    issue v s = .next (raiseError .busyViolation s) := by
  cases lawful : legal v with
  | false => rw [issue_of_illegal v s lawful, if_pos busy]
  | true =>
    obtain ⟨i, decoded⟩ := (legal_iff_decodes v).1 lawful
    rw [issue_of_decodes v i s decoded, exec_of_busy i s busy]

/-- The checks that ABSORB, FINAL and BLOCK share, with BUSY = 0, as a chain. -/
theorem issueMessage_of_idle (own : Option ErrorCode) (p : Pending) (s : State) (idle : s.busy = false) :
    issueMessage own p s = if s.err ≠ .none then s else if s.done = true then { s with err := .sequence }
      else own.elim (accept p s) (fun c => { s with err := c }) := by
  by_cases stands : s.err ≠ .none
  · rw [if_pos stands, issueMessage_of_err own p s idle stands]
  rw [if_neg stands]
  have no_err := not_not.1 stands
  by_cases done : s.done = true
  · rw [if_pos done, issueMessage_of_done own p s idle no_err done]
  rw [if_neg done]
  have not_done := Bool.eq_false_of_not_eq_true done
  cases own with
  | none => exact issueMessage_accepts p s idle no_err not_done
  | some c => exact issueMessage_refuses c p s idle no_err not_done

/-- Settles O23: with BUSY = 0 and a legal word the row of R52 it stands in decides which checks are left. -/
theorem issueFollowsThePriority : Obligations.IssueFollowsThePriority := by
  intro v s
  by_cases busy : s.busy = true
  · rw [if_pos busy, issue_of_busy v s busy]
    rfl
  rw [if_neg busy]
  by_cases illegal : legal v = false
  · rw [if_pos illegal, issue_of_illegal v s illegal, if_neg busy]
    rfl
  rw [if_neg illegal]
  have idle := Bool.eq_false_of_not_eq_true busy
  obtain ⟨i, decoded⟩ := (legal_iff_decodes v).1 (Bool.eq_true_of_not_eq_false illegal)
  rw [issue_of_decodes v i s decoded]
  obtain ⟨-, row⟩ := (decode_eq_ok_iff v i).1 decoded
  rcases row with ⟨op, -, rfl⟩ | ⟨op, -, rfl⟩ | ⟨op, rfl⟩ | ⟨op, -, rfl⟩ | ⟨op, -, rfl⟩ <;>
    simp only [op, BitVec.reduceEq, reduceIte]
  · exact execNop_of_idle s idle
  · exact execInit_of_idle s idle
  · refine congrArg Host.Outcome.next ((issueMessage_of_idle _ _ s idle).trans ?_)
    rw [absorbError, apply_ite (Option.elim · _ _)]
    rfl
  · exact congrArg Host.Outcome.next (issueMessage_of_idle _ _ s idle)
  · refine congrArg Host.Outcome.next ((issueMessage_of_idle _ _ s idle).trans ?_)
    rw [blockError, apply_ite (Option.elim · _ _)]
    rfl

/-! ### While BUSY = 1 (R100) -/

/-- Settles O24: each such write is dropped with the violation, a read leaves ERR, and a completion carries the code
over unless it is INIT's. -/
theorem writesWhileBusyAreViolations : Obligations.WritesWhileBusyAreViolations := by
  intro s busy
  have dropped (t : State) : (.next (writeWhenIdle s t) : Host.Outcome State Fault Refusal) =
      .next (raiseError .busyViolation s) := congrArg Host.Outcome.next (writeWhenIdle_of_busy s t busy)
  refine ⟨raiseError .busyViolation s, rfl, fun v => ⟨?_, ?_, ?_, fun j => ?_⟩, fun i => exec_of_busy i s busy,
    fun off => ?_, fun p latched => ?_⟩
  · exact (regWrite_offset .cmd v s).trans (issue_of_busy v s busy)
  · exact (regWrite_offset .config v s).trans (dropped _)
  · exact (regWrite_offset .dataIn v s).trans (dropped _)
  · exact (regWrite_offset (.m j) v s).trans (dropped _)
  · obtain ⟨k, counted⟩ := regRead_state off s
    rw [counted, countDraws_err]
  · refine (completeCommand_withSidesOf s (raiseError .busyViolation s)).trans ?_
    simp only [latched, Option.some.injEq]
    rw [completeCommand_eq s]
    rfl

/-! ### ABSORB's completion (R89) -/

/-- Bytes that reach or pass the end of the block: it is completed and compressed, and the rest starts the next. -/
theorem foldl_absorbByte_wrap (bs : List Byte) (s : State) (reaches : 64 ≤ s.bufcnt.val + bs.length)
    (once : s.bufcnt.val + bs.length < 128) : ∃ B : Block,
    (∀ k (hk : k < 64), B[k] = if k < s.bufcnt.val then s.buf[k] else bs.getD (k - s.bufcnt.val) 0) ∧
    (bs.foldl absorbByte s).h = foldBlock s.h B ∧
    ∀ k (hk : k < 64), (bs.foldl absorbByte s).buf[k] =
      if k < s.bufcnt.val + bs.length - 64 then bs.getD (64 - s.bufcnt.val + k) 0 else B[k] := by
  have count := s.bufcnt.isLt
  obtain ⟨first, rest, rfl, filled⟩ : ∃ first rest, bs = first ++ rest ∧ s.bufcnt.val + first.length = 64 :=
    ⟨bs.take (64 - s.bufcnt.val), bs.drop (64 - s.bufcnt.val), (List.take_append_drop _ _).symm, by simp; omega⟩
  rw [List.length_append] at once
  obtain ⟨fill_h, fill_new, fill_old⟩ := foldl_absorbByte_fill first s filled
  have restarts : (first.foldl absorbByte s).bufcnt.val = 0 := by
    rw [foldl_absorbByte_bufcnt, filled]
  obtain ⟨rest_h, rest_new, rest_old⟩ := foldl_absorbByte_short rest (first.foldl absorbByte s) (by omega)
  refine ⟨(first.foldl absorbByte s).buf, fun k hk => ?_, ?_, fun k hk => ?_⟩
  · split
    · exact fill_old k hk ‹_›
    · rw [fill_new k hk (by omega), List.getD_append _ _ _ _ (by omega)]
  · rw [List.foldl_append, rest_h, fill_h]
  · rw [List.foldl_append, List.length_append]
    split
    · rw [rest_new k hk (by omega) (by omega), restarts, List.getD_append_right _ _ _ _ (by omega)]
      congr 1
      omega
    · exact rest_old k hk (.inr (by omega))

/-- ABSORB accepted and completed: the bytes in BUF, the length, and the model's two counters. -/
theorem completeCommand_accept_absorb (bs : List Byte) (s : State) : completeCommand (accept (.absorb bs) s) = { s with
    h := (bs.foldl absorbByte s).h
    buf := (bs.foldl absorbByte s).buf
    bufcnt := (bs.foldl absorbByte s).bufcnt
    len := s.len + BitVec.ofNat 64 (8 * bs.length)
    busy := false, pending := none, issued := s.issued + 1, waited := 0 } := by
  have bytes : bs.foldl absorbByte (accept (.absorb bs) s) =
      withIntakeOf (bs.foldl absorbByte s) (accept (.absorb bs) s) :=
    foldl_absorbByte_withIntakeOf bs s (accept (.absorb bs) s)
  rw [completeCommand_of_pending _ _ (accept_pending s _), performCommand, completeAbsorb, bytes]
  rfl

/-- Settles O20: the issue latches the bytes, which either stay within the block or complete it and start the next. -/
theorem absorbCompletionFillsTheBuffer : Obligations.AbsorbCompletionFillsTheBuffer := by
  intro n s wf idle no_err not_done fits
  obtain ⟨-, high⟩ := (wellFormed_absorb_iff n).1 wf
  have accepted := execAbsorb_accepts n s idle no_err not_done fits
  have byte (k : Nat) (below : k < n) :
      (absorbBytes s.dataIn s.endian n).getD k 0 = (laneBytes s.dataIn s.endian).toList.getD k 0 := by
    rw [absorbBytes_getD _ _ n k high below]
    simp [show k < 4 by omega]
  have length := absorbBytes_length s.dataIn s.endian n high
  generalize absorbBytes s.dataIn s.endian n = bs at accepted byte length
  subst length
  refine ⟨_, _, accepted, completeCommand_accept_absorb bs s, rfl,
    fun k => (laneBytes s.dataIn s.endian).toList.getD k 0, fun k hk => by simp [hk],
    fun short => ?_, fun reaches => ?_⟩
  · obtain ⟨h, new, old⟩ := foldl_absorbByte_short bs s short
    refine ⟨h, ?_, fun k => ?_⟩
    · exact (foldl_absorbByte_bufcnt bs s).trans (Nat.mod_eq_of_lt short)
    · split_ifs with inside
      · exact (new k k.isLt inside.1 inside.2).trans (byte _ (by omega))
      · exact old k k.isLt (by omega)
  · obtain ⟨B, block, h, buf⟩ := foldl_absorbByte_wrap bs s reaches (by omega)
    have full (k : Fin 64) : B[k.val] = if k.val < s.bufcnt.val then s.buf[k.val]
        else (laneBytes s.dataIn s.endian).toList.getD (k.val - s.bufcnt.val) 0 := by
      rw [block k k.isLt]
      split_ifs
      · rfl
      · exact byte _ (by omega)
    refine ⟨?_, ⟨B, h, full⟩, fun k => ?_⟩
    · refine (foldl_absorbByte_bufcnt bs s).trans ?_
      omega
    · rw [← full k]
      refine (buf k k.isLt).trans ?_
      split_ifs
      · exact byte _ (by omega)
      · rfl

end Sys2Proof.Proofs
end

section
/-! PROOFS. The register window (20_memory.md R34 to R43, 44_commands.md R84): where each register is, what each reads,
idle and busy, and what a write to M0..M15 leaves. -/

namespace Sys2Proof.Proofs
open Sys2Proof.Machine

/-! ### The map (R34, R35, R37) -/

theorem ofOffset_eq_some_iff (off : Nat) (r : Reg) : Reg.ofOffset off = some r ↔ r.offset = off := by
  constructor
  · exact offset_of_ofOffset off r
  · rintro rfl
    exact ofOffset_offset r

/-- The word offsets of the window are 64; those without a register lie in the gaps of R36. -/
theorem reserved_of_ofOffset_none : ∀ q < 64, Reg.ofOffset (4 * q) = none →
    4 * q = 0x1C ∨ (0x34 ≤ 4 * q ∧ 4 * q ≤ 0x3C) ∨ (0x54 ≤ 4 * q ∧ 4 * q ≤ 0x7C) ∨ 0xC0 ≤ 4 * q := by
  decide

/-- Settles O28: the map is the model's, read both ways; its gaps are checked over the 64 word offsets. -/
theorem registerMapIsOneToOne : Obligations.RegisterMapIsOneToOne := by
  refine ⟨ofOffset_eq_some_iff, fun off aligned inside => ⟨fun none_at => ?_, ofOffset_reserved off⟩,
    ofOffset_offset .cmd, ofOffset_offset .status, ofOffset_offset .config, ofOffset_offset .dataIn,
    ofOffset_offset .lenLo, ofOffset_offset .lenHi, ofOffset_offset .id, fun i => ofOffset_offset (.h i),
    fun i => ofOffset_offset (.dout i), fun j => ofOffset_offset (.m j)⟩
  obtain ⟨q, rfl⟩ := Nat.dvd_of_mod_eq_zero aligned
  exact reserved_of_ofOffset_none q (by omega) none_at

theorem checkAccess_of_wellFormed (bytes off : Nat) (k : Host.Outcome State Fault Refusal) (width : bytes = 4)
    (aligned : off % 4 = 0) (inside : off < 256) : checkAccess bytes off k = k := by
  simp [checkAccess, accessBytes, windowBytes, width, aligned, Nat.not_le.2 inside]

theorem checkAccess_of_width (bytes off : Nat) (k : Host.Outcome State Fault Refusal) (width : bytes ≠ 4) :
    checkAccess bytes off k = .refused (.accessWidth bytes) := if_pos width

theorem checkAccess_of_misaligned (bytes off : Nat) (k : Host.Outcome State Fault Refusal) (width : bytes = 4)
    (misaligned : off % 4 ≠ 0) : checkAccess bytes off k = .refused (.accessMisaligned off) := by
  simp [checkAccess, accessBytes, width, misaligned]

theorem checkAccess_of_outside (bytes off : Nat) (k : Host.Outcome State Fault Refusal) (width : bytes = 4)
    (aligned : off % 4 = 0) (outside : 256 ≤ off) : checkAccess bytes off k = .fault (.outsideWindow off) := by
  simp [checkAccess, accessBytes, windowBytes, width, aligned, outside]

/-- Settles O29: the three checks stop in their order, and an access that passes them goes on. -/
theorem accessesOutsideTheWindowStop : Obligations.AccessesOutsideTheWindowStop := by
  intro s bytes off var v
  refine ⟨fun width => ?_, fun width misaligned => ?_, fun width aligned outside => ?_, fun width aligned inside => ?_⟩
  · exact ⟨checkAccess_of_width _ _ _ width, checkAccess_of_width _ _ _ width⟩
  · exact ⟨checkAccess_of_misaligned _ _ _ width misaligned, checkAccess_of_misaligned _ _ _ width misaligned⟩
  · exact ⟨checkAccess_of_outside _ _ _ width aligned outside, checkAccess_of_outside _ _ _ width aligned outside⟩
  · exact ⟨checkAccess_of_wellFormed _ _ _ width aligned inside, checkAccess_of_wellFormed _ _ _ width aligned inside⟩

/-! ### What a read gives and what it leaves (R38, R84, R112) -/

theorem exactWhenIdle_of_idle (v : Word) (s : State) (idle : s.busy = false) : exactWhenIdle v s = (v, s) := by
  simp [exactWhenIdle, idle]

theorem exactWhenIdle_of_busy (v : Word) (s : State) (busy : s.busy = true) :
    exactWhenIdle v s = (Config.draw s.draws, countDraws 1 s) := by
  simp [exactWhenIdle, busy]

theorem readStatus_of_idle (s : State) (idle : s.busy = false) :
    readStatus s = (statusWord (bufcntField s.bufcnt) s.err.code s.done false, s) := by
  simp [readStatus, idle]

theorem readStatus_of_busy (s : State) (busy : s.busy = true) : readStatus s =
    (statusWord ((Config.draw s.draws).extractLsb' 0 6) s.err.code ((Config.draw (s.draws + 1)).getLsbD 0) true,
      countDraws 2 s) := by
  simp [readStatus, busy]

/-- How many draws a read of the register takes while BUSY = 1 (R112). -/
def busyDraws : Reg → Nat
  | .status => 2
  | .h _ | .dout _ | .m _ | .lenLo | .lenHi => 1
  | .cmd | .config | .dataIn | .id => 0

theorem busyDraws_le (r : Reg) : busyDraws r ≤ 2 := by
  cases r <;> simp [busyDraws]

theorem readReg_snd_of_busy (r : Reg) (s : State) (busy : s.busy = true) :
    (readReg r s).2 = countDraws (busyDraws r) s := by
  cases r with
  | cmd | config | dataIn | id => rfl
  | status => exact congrArg Prod.snd (readStatus_of_busy s busy)
  | lenLo | lenHi | h i | dout i | m j => exact congrArg Prod.snd (exactWhenIdle_of_busy _ s busy)

theorem readReg_snd_of_idle (r : Reg) (s : State) (idle : s.busy = false) : (readReg r s).2 = s := by
  cases r with
  | cmd | config | dataIn | id => rfl
  | status => exact congrArg Prod.snd (readStatus_of_idle s idle)
  | lenLo | lenHi | h i | dout i | m j => exact congrArg Prod.snd (exactWhenIdle_of_idle _ s idle)

/-- How many draws a read of the register takes. -/
def drawsTaken (r : Reg) (s : State) : Nat := if s.busy then busyDraws r else 0

theorem drawsTaken_le (r : Reg) (s : State) : drawsTaken r s ≤ 2 := by
  rw [drawsTaken]
  split
  · exact busyDraws_le r
  · exact Nat.zero_le 2

theorem readReg_snd (r : Reg) (s : State) : (readReg r s).2 = countDraws (drawsTaken r s) s := by
  by_cases busy : s.busy = true
  · rw [drawsTaken, if_pos busy, readReg_snd_of_busy r s busy]
  · rw [drawsTaken, if_neg busy, readReg_snd_of_idle r s (Bool.eq_false_of_not_eq_true busy)]
    rfl

/-- Settles O33: a register's read counts at most its draws, and a reserved offset's read nothing. -/
theorem readsHaveNoSideEffect : Obligations.ReadsHaveNoSideEffect := by
  intro off s
  cases found : Reg.ofOffset off with
  | none =>
    rw [regRead_of_ofOffset_none off s found]
    exact ⟨⟨0, by omega, rfl⟩, fun _ => rfl⟩
  | some r =>
    obtain rfl := offset_of_ofOffset off r found
    rw [regRead_offset]
    exact ⟨⟨drawsTaken r s, drawsTaken_le r s, readReg_snd r s⟩, readReg_snd_of_idle r s⟩

/-! ### The fields of STATUS (R32) -/

theorem statusWord_busy (c : BitVec 6) (e : BitVec 3) (d y : Bool) : (statusWord c e d y).getLsbD 0 = y := by
  simp [statusWord]

theorem statusWord_done (c : BitVec 6) (e : BitVec 3) (d y : Bool) : (statusWord c e d y).getLsbD 1 = d := by
  simp [statusWord]

theorem statusWord_err (c : BitVec 6) (e : BitVec 3) (d y : Bool) : (statusWord c e d y).extractLsb' 4 3 = e := by
  refine BitVec.eq_of_getLsbD_eq fun i hi => ?_
  interval_cases i <;> simp [statusWord]

theorem statusWord_bufcnt (c : BitVec 6) (e : BitVec 3) (d y : Bool) : (statusWord c e d y).extractLsb' 8 6 = c := by
  refine BitVec.eq_of_getLsbD_eq fun i hi => ?_
  interval_cases i <;> simp [statusWord]

theorem statusWord_reserved (c : BitVec 6) (e : BitVec 3) (d y : Bool) :
    (statusWord c e d y).extractLsb' 2 2 = 0 ∧ (statusWord c e d y).getLsbD 7 = false ∧
    (statusWord c e d y).extractLsb' 14 18 = 0 := by
  refine ⟨?_, by simp [statusWord], ?_⟩
  · refine BitVec.eq_of_getLsbD_eq fun i hi => ?_
    interval_cases i <;> simp [statusWord]
  · refine BitVec.eq_of_getLsbD_eq fun i hi => ?_
    interval_cases i <;> simp [statusWord]

/-- A STATUS read, busy or not, puts BUSY and ERR in their fields, and with BUSY = 0 DONE and BUFCNT in theirs. -/
theorem readStatus_fst (s : State) : ∃ c d, (readStatus s).1 = statusWord c s.err.code d s.busy ∧
    (s.busy = false → c = bufcntField s.bufcnt ∧ d = s.done) := by
  cases busy : s.busy with
  | false => exact ⟨_, _, congrArg Prod.fst (readStatus_of_idle s busy), fun _ => ⟨rfl, rfl⟩⟩
  | true => exact ⟨_, _, congrArg Prod.fst (readStatus_of_busy s busy), nofun⟩

theorem bufcntField_toNat (c : Fin 64) : (bufcntField c).toNat = c.val := by
  rw [bufcntField, BitVec.toNat_ofNat, Nat.mod_eq_of_lt c.isLt]

/-- Settles O30: a STATUS read is a `statusWord`, whose fields are read back. -/
theorem statusFieldsStandAtTheirBits : Obligations.StatusFieldsStandAtTheirBits := by
  intro s v
  obtain ⟨c, d, read, exact_when_idle⟩ := readStatus_fst s
  obtain ⟨low, middle, high⟩ := statusWord_reserved c s.err.code d s.busy
  have err := statusWord_err c s.err.code d s.busy
  have code (e : ErrorCode) (stands : s.err = e) : (statusWord c s.err.code d s.busy).extractLsb' 4 3 = e.code :=
    err.trans (congrArg ErrorCode.code stands)
  refine ⟨_, (congrArg Prod.fst (regRead_offset .status s)).trans read, statusWord_busy _ _ _ _, low, err, middle, high,
    code _, code _, code _, code _, code _, code _, fun idle => ?_, regWrite_offset .status v s⟩
  obtain ⟨rfl, rfl⟩ := exact_when_idle idle
  exact ⟨statusWord_done _ _ _ _, by rw [statusWord_bufcnt, bufcntField_toNat]⟩

/-! ### Reads with BUSY = 0 (R84) -/

theorem laneWord_bytesBe32 (w : Word) (e : LaneOrder) :
    laneWord (bytesBe32 w) e = if e = .little then bswap32 w else w := by
  cases e with
  | big => exact be32_bytesBe32 w
  | little => exact (laneWord_little_eq_bswap32 _).trans (congrArg bswap32 (be32_bytesBe32 w))

theorem regRead_hazard_of_idle (r : Reg) (v : Word) (s : State) (idle : s.busy = false)
    (hazard : readReg r s = exactWhenIdle v s) : regRead r.offset s = (v, s) := by
  rw [regRead_offset, hazard, exactWhenIdle_of_idle v s idle]

theorem regRead_h_of_idle (i : Fin 5) (s : State) (idle : s.busy = false) :
    regRead (0x20 + 4 * i.val) s = (s.h.get i, s) := regRead_hazard_of_idle (.h i) _ s idle rfl

theorem regRead_dout_of_idle (i : Fin 5) (s : State) (idle : s.busy = false) :
    regRead (0x40 + 4 * i.val) s = (laneWord (bytesBe32 (s.h.get i)) s.endian, s) :=
  regRead_hazard_of_idle (.dout i) _ s idle rfl

theorem regRead_m_of_idle (j : Fin 16) (s : State) (idle : s.busy = false) :
    regRead (0x80 + 4 * j.val) s = (laneWord (Block.quad s.buf j) s.endian, s) :=
  regRead_hazard_of_idle (.m j) _ s idle rfl

/-- Settles O31: each register's read at its offset, and 0 where there is none. -/
theorem idleReadsAreExact : Obligations.IdleReadsAreExact := by
  intro s idle
  refine ⟨regRead_offset .cmd s, (regRead_offset .status s).trans (readStatus_of_idle s idle), regRead_config s,
    regRead_dataIn s, regRead_hazard_of_idle .lenLo _ s idle rfl, regRead_hazard_of_idle .lenHi _ s idle rfl,
    regRead_offset .id s, regRead_h_of_idle 0 s idle, regRead_h_of_idle 1 s idle, regRead_h_of_idle 2 s idle,
    regRead_h_of_idle 3 s idle, regRead_h_of_idle 4 s idle, fun i => regRead_h_of_idle i s idle, fun i => ?_,
    fun j => regRead_m_of_idle j s idle, fun off none_at => regRead_of_ofOffset_none off s none_at⟩
  rw [regRead_dout_of_idle i s idle, laneWord_bytesBe32]

/-! ### Reads with BUSY = 1 (R112) -/

/-- Settles O32: the hazard registers are draws, STATUS is a `statusWord` of draws, and the rest read as ever. -/
theorem busyReadsAreDraws : Obligations.BusyReadsAreDraws := by
  intro s busy
  have drawn (v : Word) : (exactWhenIdle v s).1 = Config.draw s.draws :=
    congrArg Prod.fst (exactWhenIdle_of_busy v s busy)
  have status : (readReg .status s).1 = _ := congrArg Prod.fst (readStatus_of_busy s busy)
  obtain ⟨low, middle, high⟩ := statusWord_reserved ((Config.draw s.draws).extractLsb' 0 6) s.err.code
    ((Config.draw (s.draws + 1)).getLsbD 0) true
  rw [status]
  have counted (r : Reg) := readReg_snd_of_busy r s busy
  exact ⟨fun i => ⟨drawn _, drawn _⟩, fun j => drawn _, drawn _, drawn _, statusWord_busy _ _ _ _,
    statusWord_err _ _ _ _, statusWord_bufcnt _ _ _ _, statusWord_done _ _ _ _, low, middle, high,
    fun i => ⟨counted (.h i), counted (.dout i)⟩, fun j => counted (.m j), counted .lenLo, counted .lenHi,
    counted .status, fun k => countDraws_draws s k, rfl, congrArg (·, s) (laneOrder_bit_word s.endian), rfl, rfl⟩

/-! ### The block window and the digest window (R42, R43) -/

/-- Settles O36: the window holds the lane bytes, which read back through the same order; word j of the schedule is the
window's big-endian word. -/
theorem blockWindowWrites : Obligations.BlockWindowWrites := by
  intro s v j
  have written := regWrite_offset (.m j) v s
  refine ⟨fun idle => ?_, fun busy => ?_⟩
  · refine ⟨_, written.trans (congrArg Host.Outcome.next (writeWhenIdle_of_idle s _ idle)), rfl, fun k => ?_,
      fun i outside => ?_, ?_, fun big => ?_⟩
    · exact setQuad_inside s.buf j _ k.val k.isLt
    · exact setQuad_outside s.buf j _ i.val i.isLt outside
    · rw [regRead_m_of_idle j { s with buf := Block.setQuad s.buf j (laneBytes v s.endian) } idle]
      simp only [quad_setQuad, laneWord_laneBytes]
    · simp only [expand_getD_of_lt, quad_setQuad, big, laneBytes_big, be32_bytesBe32]
  · exact written.trans (congrArg Host.Outcome.next (writeWhenIdle_of_busy s _ busy))

/-- The 20 bytes of a state are its five words' bytes in order. -/
theorem digestBytes_eq_flatMap (h : HashState) :
    digestBytes h = (List.finRange 5).flatMap (fun i => (bytesBe32 (h.get i)).toList) := by
  simp [digestBytes, HashState.get, List.finRange]

/-- Settles O37: the lane order of DOUT is undone by taking its lane bytes. -/
theorem doutGivesTheDigestBytesInLaneOrder : Obligations.DoutGivesTheDigestBytesInLaneOrder := by
  intro s idle
  simp only [regRead_dout_of_idle _ s idle, laneBytes_laneWord, digestBytes_eq_flatMap]

end Sys2Proof.Proofs
end

section
/-! PROOFS. The host's statements as steps (30_encoding.md R57): writes, reads, branches and a placed command word. -/

namespace Sys2Proof.Proofs
open Sys2Proof.Machine

/-! ### Statements that name a register -/

theorem offset_in_window (r : Reg) : r.offset % 4 = 0 ∧ r.offset < 256 := by
  cases r with
  | cmd | status | config | dataIn | lenLo | lenHi | id => simp [Reg.offset]
  | h i | dout i | m j => simp only [Reg.offset]; omega

theorem execStmt_write (r : Reg) (v : Word) (s : State) : execStmt (.write r v) s = regWrite r.offset v s := by
  obtain ⟨aligned, inside⟩ := offset_in_window r
  exact checkAccess_of_wellFormed 4 r.offset _ rfl aligned inside

theorem execStmt_read (r : Reg) (var : Nat) (s : State) :
    execStmt (.read r var) s = .next (hostRecord var (readReg r s).1 (readReg r s).2) := by
  obtain ⟨aligned, inside⟩ := offset_in_window r
  rw [← regRead_offset]
  exact checkAccess_of_wellFormed 4 r.offset _ rfl aligned inside

theorem step_of_write (r : Reg) (v : Word) (s : State) (runs : s.hostRuns (.write r v)) :
    step s = regWrite r.offset v (pastStatement s) := by
  rw [step_eq_execStmt s _ runs, execStmt_write]

theorem step_of_read (r : Reg) (var : Nat) (s : State) (runs : s.hostRuns (.read r var)) : step s =
    .next (hostRecord var (readReg r (pastStatement s)).1 (readReg r (pastStatement s)).2) := by
  rw [step_eq_execStmt s _ runs, execStmt_read]

/-! ### A command word (R52) -/

/-- Settles O38: the write reaches `issue`, and a turn is used exactly where a completion could have come instead. -/
theorem stepRunsTheDecodedCommand : Obligations.StepRunsTheDecodedCommand := by
  intro s w runs
  have issued : step s = issue w (pastStatement s) :=
    (step_of_write .cmd w s runs).trans (regWrite_offset .cmd w _)
  refine ⟨issued, fun i decoded => issued.trans (issue_of_decodes w i _ decoded), takeTurn_idle s, fun busy => ?_⟩
  exact takeTurn_contended s ((contended_of_hostRuns s _ runs).trans busy)

theorem decode_of_decodeTableWord (w : Nat) (i : Instr) (found : decodeTableWord 32 w = some i) :
    decode (BitVec.ofNat 32 (w % 2 ^ 32)) = .ok i := by
  rw [decodeTableWord] at found
  split at found
  case isTrue fits =>
    rw [Nat.mod_eq_of_lt fits.2]
    cases decoded : decode (BitVec.ofNat 32 w) with
    | ok j =>
      rw [decoded] at found
      exact congrArg Except.ok (Option.some.inj found)
    | error e =>
      rw [decoded] at found
      cases found
  case isFalse => cases found

/-- The placed write is the next step, while busy too, since its turn is placed with it. -/
theorem hostRuns_withFetchWord (s : State) (nbits w : Nat) :
    (s.withFetchWord nbits w).hostRuns (.write .cmd (BitVec.ofNat 32 (w % 2 ^ nbits))) := by
  refine ⟨?_, rfl⟩
  cases busy : s.busy with
  | false => simp [mover, contended, hostLine, State.withFetchWord, busy]
  | true =>
    apply mover_of_turn _ .host s.turns
    · simp [contended, hostLine, State.withFetchWord, busy]
    · simp [State.withFetchWord, busy]

/-- Settles O39: placing a program changes no state of R18, and neither does going past its statement. -/
theorem placedCommandRunsNext : Obligations.PlacedCommandRunsNext := by
  intro s w i found
  obtain ⟨-, runs_decoded, -⟩ := stepRunsTheDecodedCommand _ _ (hostRuns_withFetchWord s 32 w)
  exact ⟨_, runs_decoded i (decode_of_decodeTableWord w i found), rfl, rfl, rfl, rfl, rfl, rfl, rfl, rfl, rfl, rfl⟩

/-! ### WR, RD and BNZ (R57) -/

theorem labelLine_eq_some_iff (prog : List Line) (label k : Nat) : labelLine prog label = some k ↔
    (prog[k]?).map Line.label = some (some label) ∧ ∀ j, j < k → (prog[j]?).map Line.label ≠ some (some label) := by
  rw [labelLine, List.findIdx?_eq_some_iff_getElem]
  constructor
  · rintro ⟨inside, bears, first⟩
    refine ⟨by simpa [inside] using bears, fun j below => ?_⟩
    simpa [below.trans inside] using first j below
  · rintro ⟨bears, first⟩
    obtain ⟨inside, -⟩ : ∃ inside : k < prog.length, prog[k].label = some label := by
      simpa [List.getElem?_eq_some_iff] using bears
    refine ⟨inside, by simpa [inside] using bears, fun j below => ?_⟩
    simpa [below.trans inside] using first j below

theorem labelLine_eq_none_iff (prog : List Line) (label : Nat) :
    labelLine prog label = none ↔ ∀ l ∈ prog, l.label ≠ some label := by
  simp [labelLine]

/-- A register's write leaves the host. -/
theorem writeReg_host (r : Reg) (v : Word) (s : State) : ∃ t, writeReg r v s = .next t ∧ t.host = s.host := by
  obtain ⟨t, answers, effect⟩ := writeReg_cases r v s
  refine ⟨t, answers, ?_⟩
  rcases effect with ⟨c, rfl⟩ | rfl | ⟨-, ⟨-, i, p, -, -, rfl⟩ | ⟨-, rfl⟩ | ⟨-, rfl⟩ | ⟨j, -, rfl⟩⟩ <;> rfl

theorem exactWhenIdle_fst (v : Word) (s : State) :
    (exactWhenIdle v s).1 = if s.busy then Config.draw s.draws else v := by
  rw [exactWhenIdle, apply_ite Prod.fst]

theorem readStatus_fst_eq (s : State) : (readStatus s).1 = if s.busy
    then statusWord ((Config.draw s.draws).extractLsb' 0 6) s.err.code ((Config.draw (s.draws + 1)).getLsbD 0) true
    else statusWord (bufcntField s.bufcnt) s.err.code s.done false := by
  rw [readStatus, apply_ite Prod.fst]

/-- A read's value depends on R18's states and the count of draws, which a turn and the program counter leave. -/
theorem readReg_pastStatement_fst (r : Reg) (s : State) : (readReg r (pastStatement s)).1 = (readReg r s).1 := by
  cases r with
  | cmd | config | dataIn | id => rfl
  | status => exact (readStatus_fst_eq (pastStatement s)).trans (readStatus_fst_eq s).symm
  | lenLo | lenHi | h i | dout i | m j =>
    exact (exactWhenIdle_fst _ (pastStatement s)).trans (exactWhenIdle_fst _ s).symm

theorem step_of_bnz_not_taken (var : Nat) (mask : Word) (label : Nat) (s : State)
    (runs : s.hostRuns (.bnz var mask label)) (zero : hostVar var s &&& mask = 0) :
    step s = .next (pastStatement s) :=
  (step_eq_execStmt s _ runs).trans (if_pos zero)

theorem step_of_bnz_taken (var : Nat) (mask : Word) (label k : Nat) (s : State)
    (runs : s.hostRuns (.bnz var mask label)) (taken : hostVar var s &&& mask ≠ 0)
    (found : labelLine s.host.program label = some k) : step s = .next (hostGoto k (takeTurn s)) := by
  have found_past : labelLine (pastStatement s).host.program label = some k := found
  have taken_past : hostVar var (pastStatement s) &&& mask ≠ 0 := taken
  rw [step_eq_execStmt s _ runs, execStmt, if_neg taken_past, found_past]
  rfl

theorem step_of_bnz_missing (var : Nat) (mask : Word) (label : Nat) (s : State)
    (runs : s.hostRuns (.bnz var mask label)) (taken : hostVar var s &&& mask ≠ 0)
    (missing : labelLine s.host.program label = none) : step s = .refused (.noSuchLabel label) := by
  have missing_past : labelLine (pastStatement s).host.program label = none := missing
  have taken_past : hostVar var (pastStatement s) &&& mask ≠ 0 := taken
  rw [step_eq_execStmt s _ runs, execStmt, if_neg taken_past, missing_past]

/-- Settles O40: each statement's step is its own, on the state with the host past it. -/
theorem hostStatementsRun : Obligations.HostStatementsRun := by
  refine ⟨labelLine_eq_some_iff, labelLine_eq_none_iff, fun s => ⟨rfl, fun st runs => runs.2, fun r v runs => ?_,
    fun r var runs => ?_, fun var mask label runs => ⟨fun zero => ?_, fun taken k found => ?_, ?_⟩⟩⟩
  · have written := step_of_write r v s runs
    obtain ⟨t, answers, host⟩ := writeReg_host r v (pastStatement s)
    exact ⟨t, written.trans ((regWrite_offset r v _).trans answers), written, host⟩
  · have read := step_of_read r var s runs
    rw [readReg_pastStatement_fst, readReg_snd] at read
    exact ⟨drawsTaken r s, _, drawsTaken_le r s, readReg_snd r s, read, rfl, rfl, hostVar_hostRecord_same var _ _,
      fun u other => hostVar_hostRecord_ne u var _ _ other⟩
  · exact ⟨_, step_of_bnz_not_taken var mask label s runs zero, rfl, rfl⟩
  · exact ⟨_, step_of_bnz_taken var mask label k s runs taken found, rfl, rfl⟩
  · exact step_of_bnz_missing var mask label s runs

end Sys2Proof.Proofs
end

section
/-! PROOFS. Where a message starts (44_commands.md R88, R93, 70_reset_and_hazards.md R109), and what the host observes
where its digest is done (R115). -/

namespace Sys2Proof.Proofs
open Sys2Proof.Machine

/-! ### Reset and INIT -/

/-- Settles O42: the reads are evaluated, DOUT's in the big-endian order of reset. -/
theorem stateAfterReset : Obligations.StateAfterReset := by
  refine ⟨rfl, rfl, rfl, rfl, fun i => ⟨?_, ?_⟩, accept .init State.reset, execInit_of_idle _ rfl, rfl⟩
  · rw [regRead_h_of_idle i _ rfl]
    rfl
  · rw [regRead_dout_of_idle i _ rfl, laneWord_bytesBe32]
    rfl

/-- Settles O54: both leave the IV and nothing of a message. -/
theorem resetAndInitStartAMessage : Obligations.ResetAndInitStartAMessage := by
  refine ⟨⟨rfl, rfl, rfl, rfl, rfl, rfl, rfl⟩, fun s t performs stepped => ?_⟩
  obtain ⟨engine, latched⟩ := performs
  rw [eq_of_engine s t engine stepped, completeCommand_of_pending (takeTurn s) .init latched]
  exact ⟨rfl, rfl, rfl, rfl, rfl, rfl, rfl⟩

/-! ### FINAL's last block (R65, R90) -/

theorem completeFinal_buf_eq_drop (s : State) : (completeFinal s).buf.toList =
    (padTail s.buf s.bufcnt s.len).drop ((padTail s.buf s.bufcnt s.len).length - 64) := by
  by_cases one : s.bufcnt.val ≤ 55
  · rw [(completeFinal_one_block s one).1, padTail_of_le _ _ _ one, shortTail_length _ _ _ one]
    rfl
  · have two : 56 ≤ s.bufcnt.val := Nat.not_le.1 one
    rw [(completeFinal_two_blocks s two).1, padTail_of_ge _ _ _ two, List.length_append, lengthBlock_length,
      Nat.add_sub_cancel, List.drop_left]

/-- After a message has been taken in, FINAL leaves the last block of the padded message in BUF. -/
theorem completeFinal_buf_of_intake (m : List Byte) (s : State) (intake : Intake m s)
    (len : s.len = BitVec.ofNat 64 (8 * m.length)) :
    (completeFinal s).buf.toList = (pad m).drop ((pad m).length - 64) := by
  have buffered : s.buf.toList.take s.bufcnt.val = m.drop (m.length - s.bufcnt.val) :=
    intake.count.symm ▸ intake.buffered
  have whole_block : 64 ≤ (padTail s.buf s.bufcnt s.len).length := by
    rw [padTail_length]
    split <;> decide
  rw [completeFinal_buf_eq_drop, pad_eq_append_padTail m s.buf s.bufcnt intake.count buffered, ← len,
    List.length_append, Nat.add_sub_assoc whole_block, List.drop_length_add_append]

/-! ### The observation of an idle state (R115) -/

/-- The sixteen windows of BUF are its 64 bytes. -/
theorem toList_eq_flatMap_quad (B : Block) :
    B.toList = (List.finRange 16).flatMap (fun j => (Block.quad B j).toList) := by
  have bytes : B.toList = List.ofFn (fun i : Fin (4 * 16) => B[i.val]) :=
    List.ext_getElem (by rw [Vector.length_toList, List.length_ofFn]) fun i _ _ => by
      rw [Vector.getElem_toList, List.getElem_ofFn]
  rw [bytes, List.ofFn_mul', List.flatMap_def, ← List.ofFn_eq_map]
  rfl

theorem observe_status_of_idle (t : State) (idle : t.busy = false) :
    t.observe.status = statusWord (bufcntField t.bufcnt) t.err.code t.done false :=
  congrArg Prod.fst (readStatus_of_idle t idle)

theorem observe_h_of_idle (t : State) (idle : t.busy = false) :
    t.observe.h = (List.finRange 5).map (fun i => t.h.get i) :=
  List.map_congr_left fun _ _ => congrArg Prod.fst (exactWhenIdle_of_idle _ t idle)

theorem observe_len_of_idle (t : State) (idle : t.busy = false) :
    t.observe.lenHi.toNat * 2 ^ 32 + t.observe.lenLo.toNat = t.len.toNat := by
  have high : t.observe.lenHi = t.len.extractLsb' 32 32 := congrArg Prod.fst (exactWhenIdle_of_idle _ t idle)
  have low : t.observe.lenLo = t.len.extractLsb' 0 32 := congrArg Prod.fst (exactWhenIdle_of_idle _ t idle)
  have := t.len.isLt
  rw [high, low, BitVec.extractLsb'_toNat, BitVec.extractLsb'_toNat, Nat.shiftRight_eq_div_pow, Nat.shiftRight_zero]
  omega

/-- The lane bytes of DOUT0..DOUT4 are the digest bytes of H (R43). -/
theorem observe_dout_of_idle (t : State) (idle : t.busy = false) :
    t.observe.dout.flatMap (fun w => (laneBytes w t.endian).toList) = digestBytes t.h := by
  have read (i : Fin 5) : (readReg (.dout i) t).1 = laneWord (bytesBe32 (t.h.get i)) t.endian :=
    congrArg Prod.fst (exactWhenIdle_of_idle _ t idle)
  simp only [State.observe, List.flatMap_map, read, laneBytes_laneWord, digestBytes_eq_flatMap]

/-- The lane bytes of M0..M15 are the bytes of BUF (R42). -/
theorem observe_m_of_idle (t : State) (idle : t.busy = false) :
    t.observe.m.flatMap (fun w => (laneBytes w t.endian).toList) = t.buf.toList := by
  have read (j : Fin 16) : (readReg (.m j) t).1 = laneWord (Block.quad t.buf j) t.endian :=
    congrArg Prod.fst (exactWhenIdle_of_idle _ t idle)
  simp only [State.observe, List.flatMap_map, read, laneBytes_laneWord, toList_eq_flatMap_quad t.buf]

/-- Settles O57: FINAL's completion leaves the digest in H, the bit length in LEN and the last padded block in BUF, with
BUSY = 0, so that every register is read as it is. -/
theorem theDigestIsObserved : Obligations.TheDigestIsObserved := by
  rintro m s t run ⟨engine, latched⟩ stepped
  obtain rfl := eq_of_engine s t engine stepped
  have inv := streamInvariant_takeTurn m s (streamInvariant_of_streaming m s run)
  obtain ⟨h, len, done, bufcnt⟩ := completeCommand_final_of_stream m (takeTurn s) inv latched
  have no_error : (completeCommand (takeTurn s)).err = .none := by
    rw [completeCommand_err, inv.no_error, ite_self]
  have bit_length : (takeTurn s).len = BitVec.ofNat 64 (8 * m.length) := by
    rw [← inv.length, BitVec.ofNat_toNat, BitVec.setWidth_eq]
  have buf : (completeCommand (takeTurn s)).buf.toList = (pad m).drop ((pad m).length - 64) := by
    rw [completeCommand_of_pending (takeTurn s) .final latched]
    exact completeFinal_buf_of_intake m (takeTurn s) inv.intake bit_length
  have idle := completeCommand_busy (takeTurn s)
  refine ⟨?_, ?_, ?_, ?_, ?_, ?_⟩
  · rw [observe_status_of_idle _ idle, bufcnt, no_error, done]
    rfl
  · rw [observe_h_of_idle _ idle, h]
  · rw [observe_dout_of_idle _ idle, h, digest]
  · rw [observe_len_of_idle _ idle, len, inv.length]
  · rw [observe_m_of_idle _ idle, buf]
  · exact congrArg (List.reverse ∘ HostAgent.reads) (completeCommand_host (takeTurn s))

end Sys2Proof.Proofs
end
